-- ==== Sys2Proof/Word.lean ====
section
/-! DEFINITION. The word types of the core (spec 00_scope.md R7, R8: every value is unsigned, bit 0 is
the least significant bit) and the concatenation shapes of the five instruction formats. -/

namespace Sys2Proof

/-- An 8-bit cell: a general register, a timer or a memory byte (R20). -/
abbrev Byte := BitVec 8

/-- A 16-bit value: `I`, `PC`, a stack cell or an instruction word (R20, R80). -/
abbrev Word := BitVec 16

/-- A 4-bit field of an instruction word (R82). -/
abbrev Nibble := BitVec 4

/-- A register number: "The register number is a 4-bit value" (R21). -/
abbrev RegIdx := BitVec 4

/-- The 12-bit address field `nnn` (R82). -/
abbrev Addr12 := BitVec 12

/-- The number of the flag register `VF` (R21, R22). -/
abbrev VF : RegIdx := 0xF#4

/-- Every register number indexes one of the sixteen cells. -/
theorem nibble_lt (x : BitVec 4) : x.toNat < 16 := x.isLt

end Sys2Proof
end

