-- ==== Sys2Proof/WellFormed.lean ====
section
/-! DEFINITION. Which terms of `Instr` are instructions. Every operand field has its width in its type, so
one thing is left to check: a `nop` holds a word that is none of the 34 defined instructions
(30_encoding.md R90). -/

namespace Sys2Proof

/-- The unmatched words of family `0`: all but `00E0` and `00EE` (R88, R90). -/
def unmatched0 (w : Word) : Bool := !(w == 0x00E0#16) && !(w == 0x00EE#16)

/-- The sub-operation numbers family `8` does not define (R90). -/
def unmatched8 (sub : Nibble) : Bool :=
  [0x8#4, 0x9#4, 0xA#4, 0xB#4, 0xC#4, 0xD#4, 0xF#4].contains sub

/-- The low bytes family `E` does not define (R90). -/
def unmatchedE (kk : Byte) : Bool := !([0x9E#8, 0xA1#8].contains kk)

/-- The low bytes family `F` does not define (R90). -/
def unmatchedF (kk : Byte) : Bool :=
  !([0x07#8, 0x0A#8, 0x15#8, 0x18#8, 0x1E#8, 0x29#8, 0x33#8, 0x55#8, 0x65#8].contains kk)

/-- R90's table: the words that are no defined instruction. -/
def unmatched (w : Word) : Bool :=
  let op := w.extractLsb' 12 4
  (op == 0x0#4 && unmatched0 w) || (op == 0x8#4 && unmatched8 (w.extractLsb' 0 4)) ||
  (op == 0xE#4 && unmatchedE (w.extractLsb' 0 8)) || (op == 0xF#4 && unmatchedF (w.extractLsb' 0 8))

/-- Well-formedness of an instruction. -/
def Instr.wf : Instr → Bool
  | .nop w => unmatched w
  | .cls | .ret | .jp _ | .call _ | .seImm _ _ | .sneImm _ _ | .seReg _ _ _ | .ldImm _ _
  | .addImm _ _ | .ldReg _ _ | .orReg _ _ | .andReg _ _ | .xorReg _ _ | .addReg _ _ | .subReg _ _
  | .shrReg _ _ | .subnReg _ _ | .shlReg _ _ | .sneReg _ _ _ | .ldI _ | .jpV0 _ | .rnd _ _
  | .drw _ _ _ | .skp _ | .sknp _ | .ldVxDT _ | .ldVxK _ | .ldDTVx _ | .ldSTVx _ | .addI _
  | .ldF _ | .ldB _ | .ldMemVx _ | .ldVxMem _ => true

end Sys2Proof
end

