-- ==== Sys2Proof/Config.lean ====
section
/-! DEFINITION. What is fixed for this core (spec 00_scope.md R6), the font table (20_memory.md R57) and
the one free value, the random byte (41_alu.md R135). -/

namespace Sys2Proof.Config

/-- `MEM_SIZE` (R6): addresses 0 to 4095. -/
abbrev memSize : Nat := 4096

/-- `ROM_BASE` (R6): where `load` writes, and the reset value of `PC`. -/
abbrev romBase : Nat := 0x200

/-- `ROM_MAX` (R6): the most bytes `load` accepts. -/
abbrev romMax : Nat := 3584

/-- `STACK_DEPTH` (R6). -/
abbrev stackDepth : Nat := 16

/-- `GLYPH_BYTES` (R6): glyph `d` stands at address `5*d`. -/
abbrev glyphBytes : Nat := 5

/-- Glyphs 0 to 7 of R57's table. -/
def fontLow : List Byte :=
  [0xF0, 0x90, 0x90, 0x90, 0xF0] ++ [0x20, 0x60, 0x20, 0x20, 0x70] ++
  [0xF0, 0x10, 0xF0, 0x80, 0xF0] ++ [0xF0, 0x10, 0xF0, 0x10, 0xF0] ++
  [0x90, 0x90, 0xF0, 0x10, 0x10] ++ [0xF0, 0x80, 0xF0, 0x10, 0xF0] ++
  [0xF0, 0x80, 0xF0, 0x90, 0xF0] ++ [0xF0, 0x10, 0x20, 0x40, 0x40]

/-- Glyphs 8 to F of R57's table. -/
def fontHigh : List Byte :=
  [0xF0, 0x90, 0xF0, 0x90, 0xF0] ++ [0xF0, 0x90, 0xF0, 0x10, 0xF0] ++
  [0xF0, 0x90, 0xF0, 0x90, 0x90] ++ [0xE0, 0x90, 0xE0, 0x90, 0xE0] ++
  [0xF0, 0x80, 0x80, 0x80, 0xF0] ++ [0xE0, 0x90, 0x90, 0x90, 0xE0] ++
  [0xF0, 0x80, 0xF0, 0x80, 0xF0] ++ [0xF0, 0x80, 0xF0, 0x80, 0x80]

/-- `FONT[0..79]` (R57, R6). PRESUMED: the source gives no byte of it; this is the default table the
spec supplies from general knowledge (D22). Unsafe for the pixels a font draw sets; log entry 1. -/
def font : List Byte := fontLow ++ fontHigh

/-- The random input of the `n`-th executed `Cxnn` (R135). A free value: "an unconstrained input",
so it has no body and no proof can learn a value of it. Log entry 2. -/
opaque randomByte : Nat → Byte

end Sys2Proof.Config
end

