-- ==== Sys2Proof/Machine/State.lean ====
section
/-! DEFINITION. The state of the core (10_state.md R20), the three faults (60_exceptions.md R190 to R192)
and the state after reset (70_reset_and_hazards.md R220). Plain data throughout. -/

namespace Sys2Proof.Machine

/-- The faults the spec names. They are the non-`None` values of the latch `FAULT` (R40). Raising one is
a next state in which the latch holds it and nothing else has changed (R193), so no step of this model
answers `Outcome.fault`: a faulted core goes on receiving host events (R194). -/
inductive Fault where
  /-- Raised by `2nnn` with `SP = 16` (R190). Latched, never an end of the run: safe. -/
  | stackOverflow
  /-- Raised by `00EE` with `SP = 0` (R191). Latched, never an end of the run: safe. -/
  | stackUnderflow
  /-- Raised by the fetch with `PC > 4094`, and by `Dxyn`, `Fx33`, `Fx55`, `Fx65` when the range at `I`
  leaves memory (R192). Latched, never an end of the run: safe. -/
  | outOfBounds
  deriving DecidableEq, Repr

/-- Why a step is refused. Every instruction of the table has its meaning, so no step is. -/
inductive Refusal where
  /-- Answered only by an arm of `exec` whose instruction has no meaning yet (there is none). A refusal
  stops the model where the core goes on: safe. -/
  | notModelled (mnemonic : String)
  deriving DecidableEq, Repr

/-- `MEM` (R50) as the cells that differ from their reset contents (R51): addresses strictly rising, no
cell equal to what an unlisted address reads as. Read and written in Machine/Memory.lean. -/
abbrev Memory := List Host.Cell

/-- The framebuffer: 32 rows of 64 pixels (R37); `fb[y][x]` is column `x` of row `y`. -/
abbrev Screen := Vector (Vector Bool 64) 32

/-- The whole state (R20). The last field is the model's own. -/
structure State where
  /-- `MEM`, 4096 bytes -/
  mem : Memory
  /-- `V0` to `VF`, 8 bits each -/
  v : Vector Byte 16
  /-- `I`, 16 bits -/
  i : Word
  /-- `PC`, 16 bits -/
  pc : Word
  /-- `STACK[0..15]`, 16 bits each -/
  stack : Vector Word 16
  /-- `SP`, 0 to 16 -/
  sp : Fin 17
  /-- `DT`, 8 bits -/
  dt : Byte
  /-- `ST`, 8 bits -/
  st : Byte
  /-- `KEY[0..15]`, 1 bit each -/
  key : Vector Bool 16
  /-- `FB` -/
  fb : Screen
  /-- `WAIT`, 1 bit -/
  wait : Bool
  /-- `WAIT_X`, 4 bits -/
  waitX : RegIdx
  /-- `FAULT`; `none` is the spec's `None` (R40) -/
  fault : Option Fault
  /-- MODEL'S OWN: how many random bytes have been drawn; the argument of `Config.randomByte` at the
  next `Cxnn`. DESIGN CHOICE, log entry 2. -/
  draws : Nat
  deriving DecidableEq, Repr

/-- The state after `reset` (R220). `draws` is the model's own: 0 is a DESIGN CHOICE, log entry 2. -/
def State.reset : State where
  mem := []
  v := Vector.replicate 16 0
  i := 0
  pc := 0x200
  stack := Vector.replicate 16 0
  sp := 0
  dt := 0
  st := 0
  key := Vector.replicate 16 false
  fb := Vector.replicate 32 (Vector.replicate 64 false)
  wait := false
  waitX := 0
  fault := none
  draws := 0

/-- What an event or instruction answers. -/
abbrev Result := Host.Outcome State Fault Refusal

end Sys2Proof.Machine
end

