-- ==== Sys2Proof/Machine/Memory.lean ====
section
/-! DEFINITION. The memory `MEM` (20_memory.md R50 to R58): what an unlisted address reads as, one-byte
read and write, runs of bytes, and the canonical form. -/

namespace Sys2Proof.Machine

/-- What an address nothing has written reads as: the contents after reset (R51, R220), the font in
`0x000` to `0x04F` and 0 above. -/
def Memory.blank (a : Nat) : Byte := if a < 80 then Config.font.getD a 0 else 0

/-- The listed byte at an address, if there is one. -/
def Memory.lookup : Memory → Nat → Option Byte
  | [], _ => none
  | (k, b) :: rest, a => if k = a then some b else Memory.lookup rest a

/-- `MEM[a]` (R52, one byte). -/
def Memory.read (m : Memory) (a : Nat) : Byte := (Memory.lookup m a).getD (Memory.blank a)

/-- The list without the cell at an address. -/
def Memory.dropCell : Memory → Nat → Memory
  | [], _ => []
  | (k, b) :: rest, a => if k = a then Memory.dropCell rest a else (k, b) :: Memory.dropCell rest a

/-- The list with a cell put where its address belongs. -/
def Memory.insertCell : Memory → Nat → Byte → Memory
  | [], a, b => [(a, b)]
  | (k, c) :: rest, a, b =>
    if a < k then (a, b) :: (k, c) :: rest else (k, c) :: Memory.insertCell rest a b

/-- `MEM[a] <- b` (R53): "changes exactly one cell and nothing else". A cell written with what an unlisted
address reads as is no longer listed. -/
def Memory.write (m : Memory) (a : Nat) (b : Byte) : Memory :=
  if b = Memory.blank a then Memory.dropCell m a else Memory.insertCell (Memory.dropCell m a) a b

/-- Bytes stored at `a`, `a + 1`, ... in ascending order (R58). -/
def Memory.writeBytes : Memory → Nat → List Byte → Memory
  | m, _, [] => m
  | m, a, b :: bs => Memory.writeBytes (Memory.write m a b) (a + 1) bs

/-- The canonical form: addresses strictly rising and inside memory, no cell equal to what an unlisted
address reads as. -/
abbrev Memory.wf (m : Memory) : Prop :=
  m.Pairwise (fun p q => p.1 < q.1) ∧ ∀ p ∈ m, p.1 < Config.memSize ∧ p.2 ≠ Memory.blank p.1

/-- The range check of R54: `k` bytes from `base` on are all in memory, or there are none (D2, D32). The sum
is "over the integers (no reduction to 12 or 16 bits)". -/
abbrev inMemory (base : Word) (k : Nat) : Prop := k = 0 ∨ base.toNat + k ≤ Config.memSize

end Sys2Proof.Machine
end

