-- ==== Sys2Proof/Machine/Operands.lean ====
section
/-! DEFINITION. The operand forms: registers (10_state.md R21), immediates (30_encoding.md R83), the
effective addresses (42_memory_index.md R146), the key index (44_timer_key.md R160), the glyph address (R142)
and the three decimal digits (R143). -/

namespace Sys2Proof.Machine

/-- `V[x]`. -/
def readV (s : State) (x : RegIdx) : Byte := s.v[x.toNat]'(nibble_lt x)

/-- `V[x] <- b`. There is "no hardwired register" (R21). -/
def writeV (s : State) (x : RegIdx) (b : Byte) : State :=
  { s with v := s.v.set x.toNat b (nibble_lt x) }

/-- `zext_16(nnn)` (R83). -/
def zextAddr (nnn : Addr12) : Word := nnn.setWidth 16

/-- `zext_16` of an 8-bit value (R83). -/
def zextByte (b : Byte) : Word := b.setWidth 16

/-- `zext_8(k)` of a key code (R167). -/
def zextKey (k : Nibble) : Byte := k.setWidth 8

/-- The address of byte `k` of an access through `I`: `I + k` over the integers (R146). -/
def effAddr (s : State) (k : Nat) : Nat := s.i.toNat + k

/-- The low nibble `V[x][3:0]`, which indexes the keypad (R160, D9) and the font (R142). -/
def lowNibble (b : Byte) : Nibble := b.extractLsb' 0 4

/-- `5 * V[x][3:0]` (R142). -/
def glyphAddr (b : Byte) : Word := 5#16 * (lowNibble b).setWidth 16

/-- Hundreds, tens and ones of a byte, each in a byte of its own (R143). -/
def bcdDigits (b : Byte) : List Byte :=
  [BitVec.ofNat 8 (b.toNat / 100), BitVec.ofNat 8 (b.toNat / 10 % 10), BitVec.ofNat 8 (b.toNat % 10)]

/-- `V0..Vx` in ascending order (R144). -/
def firstRegs (s : State) (x : RegIdx) : List Byte :=
  (List.range (x.toNat + 1)).map (fun k => readV s (BitVec.ofNat 4 k))

/-- `KEY[k]`. -/
def readKey (s : State) (k : Nibble) : Bool := s.key[k.toNat]'(nibble_lt k)

/-- `KEY[k] <- b`. -/
def writeKey (s : State) (k : Nibble) (b : Bool) : State :=
  { s with key := s.key.set k.toNat b (nibble_lt k) }

end Sys2Proof.Machine
end

