-- ==== Sys2Proof/Machine/Flags.lean ====
section
/-! DEFINITION. The flag values of 10_state.md R26, all left in `VF` (R25), and the order of the two writes of
a flag-writing instruction (R27). -/

namespace Sys2Proof.Machine

/-- The flag value: "always `0x00` or `0x01`" (R132). -/
def flagByte (f : Bool) : Byte := if f then 0x01 else 0x00

/-- Carry of `8xy4`: the 8-bit sum overflows (R132). -/
def carryFlag (a b : Byte) : Bool := 255 < a.toNat + b.toNat

/-- Not-borrow of a subtraction `a - b`: `a >= b` (R132). -/
def notBorrowFlag (a b : Byte) : Bool := b.toNat ≤ a.toNat

/-- The bit a right shift moves out (R128). -/
def lowBitFlag (a : Byte) : Bool := a.getLsbD 0

/-- The bit a left shift moves out (R130). -/
def highBitFlag (a : Byte) : Bool := a.getLsbD 7

/-- "`Vx` is written, and `VF` is written last" (R27, D6). -/
def writeResultAndFlag (s : State) (x : RegIdx) (result : Byte) (f : Bool) : State :=
  writeV (writeV s x result) VF (flagByte f)

end Sys2Proof.Machine
end

