-- ==== Sys2Proof/Machine/Ops.lean ====
section
/-! DEFINITION. The shared operations over the state: the `PC` updates (40_control_flow.md R100), raising a
fault (60_exceptions.md R193), the stack (10_state.md R31), register load from memory, and the framebuffer
writer (43_display.md R151). -/

namespace Sys2Proof.Machine

/-! ## Program counter -/

/-- `PC <- PC + 2` (R100). -/
def advance (s : State) : State := { s with pc := s.pc + 2#16 }

/-- `PC <- PC + 4` if the condition holds, else `PC + 2` (R100, R109). -/
def skipIf (c : Bool) (s : State) : State := { s with pc := s.pc + (if c then 4#16 else 2#16) }

/-- `PC <- target`. -/
def jumpTo (target : Word) (s : State) : State := { s with pc := target }

/-! ## Faults -/

/-- `raise F(info)` (R193): "The complete effect of the `step` event is `FAULT <- F`; no other state
changes". Nothing is saved, no mode changes and control goes nowhere; `info` is not stored. There is no
return from a fault: only the `reset` event clears the latch (R195, Machine/Events.lean). -/
def raise (f : Fault) (s : State) : Result := .next { s with fault := some f }

/-! ## Plain field writes -/

/-- `I <- w`. -/
def setI (w : Word) (s : State) : State := { s with i := w }

/-- `DT <- b`. -/
def setDT (b : Byte) (s : State) : State := { s with dt := b }

/-- `ST <- b`. -/
def setST (b : Byte) (s : State) : State := { s with st := b }

/-- `FB <- fb`. -/
def setScreen (fb : Screen) (s : State) : State := { s with fb := fb }

/-- `WAIT <- 1; WAIT_X <- x` (R166). -/
def awaitKey (x : RegIdx) (s : State) : State := { s with wait := true, waitX := x }

/-- One random byte has been drawn (the model's own counter). -/
def countDraw (s : State) : State := { s with draws := s.draws + 1 }

/-- Bytes stored at `MEM[a]`, `MEM[a+1]`, ... -/
def storeBytes (a : Nat) (bs : List Byte) (s : State) : State :=
  { s with mem := Memory.writeBytes s.mem a bs }

/-! ## Stack (R31) -/

/-- Push: `STACK[SP] <- a; SP <- SP + 1`; nothing when all 16 cells are live. -/
def push (a : Word) (s : State) : Option State :=
  if h : s.sp.val < 16 then
    some { s with stack := s.stack.set s.sp.val a h, sp := ⟨s.sp.val + 1, by omega⟩ }
  else none

/-- Pop: `SP <- SP - 1; read STACK[SP]`; nothing when no cell is live. The cell keeps its value. -/
def pop (s : State) : Option (Word × State) :=
  if h : 0 < s.sp.val then
    some (s.stack[s.sp.val - 1]'(by omega), { s with sp := ⟨s.sp.val - 1, by omega⟩ })
  else none

/-! ## Register load (R145) -/

/-- `V[j] <- MEM[base + j]` for `j` from 0 up to `k - 1`, ascending. -/
def loadRegs (base : Nat) (s : State) : Nat → State
  | 0 => s
  | k + 1 => writeV (loadRegs base s k) (BitVec.ofNat 4 k) (Memory.read s.mem (base + k))

/-! ## Framebuffer writer (R151 to R153) -/

/-- A framebuffer with its collision bit so far: `FB` and `hit` of R151. -/
abbrev Canvas := Screen × Bool

/-- `px = n mod 64` (R153). -/
def wrapX (n : Nat) : Fin 64 := ⟨n % 64, Nat.mod_lt n (by decide)⟩

/-- `py = n mod 32` (R153). -/
def wrapY (n : Nat) : Fin 32 := ⟨n % 32, Nat.mod_lt n (by decide)⟩

/-- `FB[y][x]`. -/
def pixel (fb : Screen) (x : Fin 64) (y : Fin 32) : Bool := (fb[y.val])[x.val]

/-- `FB[y][x] <- FB[y][x] ^ 1`. -/
def flipPixel (fb : Screen) (x : Fin 64) (y : Fin 32) : Screen :=
  fb.set y.val ((fb[y.val]).set x.val (!pixel fb x y))

/-- The all-zero framebuffer (R150). -/
def clearScreen : Screen := Vector.replicate 32 (Vector.replicate 64 false)

/-- Column `col` of a sprite byte: bit `7 - col` (R152, D5). -/
def spriteBit (b : Byte) (col : Nat) : Bool := b.getLsbD (7 - col)

/-- One sprite bit: the body of R151's inner loop. -/
def drawBit (x0 y0 row : Nat) (b : Byte) (c : Canvas) (col : Nat) : Canvas :=
  if spriteBit b col then
    (flipPixel c.1 (wrapX (x0 + col)) (wrapY (y0 + row)),
     c.2 || pixel c.1 (wrapX (x0 + col)) (wrapY (y0 + row)))
  else c

/-- One sprite row: columns 0 to 7. -/
def drawRow (x0 y0 row : Nat) (b : Byte) (c : Canvas) : Canvas :=
  (List.range 8).foldl (drawBit x0 y0 row b) c

/-- Sprite rows 0 to `n - 1` read from `base` on, ascending: R151's outer loop. -/
def drawRows (m : Memory) (base x0 y0 : Nat) (c : Canvas) : Nat → Canvas
  | 0 => c
  | n + 1 => drawRow x0 y0 n (Memory.read m (base + n)) (drawRows m base x0 y0 c n)

end Sys2Proof.Machine
end

