-- ==== Sys2Proof/Machine/Alu.lean ====
section
/-! DEFINITION. Register load, arithmetic, bitwise, shift and random instructions (41_alu.md R120 to R135). In
each, the operands are read before anything is written (10_state.md R27). -/

namespace Sys2Proof.Machine

/-- `6xnn` LD Vx, nn (R120). -/
def execLdImm (x : RegIdx) (nn : Byte) (s : State) : Result := .next (advance (writeV s x nn))

/-- `7xnn` ADD Vx, nn (R121): "truncated to 8 bits, no flag side-effect". -/
def execAddImm (x : RegIdx) (nn : Byte) (s : State) : Result :=
  .next (advance (writeV s x (readV s x + nn)))

/-- `8xy0` LD Vx, Vy (R122). -/
def execLdReg (x y : RegIdx) (s : State) : Result := .next (advance (writeV s x (readV s y)))

/-- `8xy1` OR Vx, Vy (R123). -/
def execOrReg (x y : RegIdx) (s : State) : Result :=
  .next (advance (writeV s x (readV s x ||| readV s y)))

/-- `8xy2` AND Vx, Vy (R124). -/
def execAndReg (x y : RegIdx) (s : State) : Result :=
  .next (advance (writeV s x (readV s x &&& readV s y)))

/-- `8xy3` XOR Vx, Vy (R125). -/
def execXorReg (x y : RegIdx) (s : State) : Result :=
  .next (advance (writeV s x (readV s x ^^^ readV s y)))

/-- `8xy4` ADD Vx, Vy (R126). -/
def execAddReg (x y : RegIdx) (s : State) : Result :=
  .next (advance (writeResultAndFlag s x (readV s x + readV s y) (carryFlag (readV s x) (readV s y))))

/-- `8xy5` SUB Vx, Vy (R127). -/
def execSubReg (x y : RegIdx) (s : State) : Result :=
  .next (advance (writeResultAndFlag s x (readV s x - readV s y) (notBorrowFlag (readV s x) (readV s y))))

/-- `8xy6` SHR Vx (R128): logical, by one; `Vx` is the operand (R133, D7). -/
def execShrReg (x : RegIdx) (s : State) : Result :=
  .next (advance (writeResultAndFlag s x (readV s x >>> 1) (lowBitFlag (readV s x))))

/-- `8xy7` SUBN Vx, Vy (R129): `Vy - Vx`, written to `Vx`. -/
def execSubnReg (x y : RegIdx) (s : State) : Result :=
  .next (advance (writeResultAndFlag s x (readV s y - readV s x) (notBorrowFlag (readV s y) (readV s x))))

/-- `8xyE` SHL Vx (R130): by one; `Vx` is the operand (R133, D7). -/
def execShlReg (x : RegIdx) (s : State) : Result :=
  .next (advance (writeResultAndFlag s x (readV s x <<< 1) (highBitFlag (readV s x))))

/-- `Cxnn` RND Vx, nn (R135) with the random input of its `step` event given. -/
def loadRandom (rnd : Byte) (x : RegIdx) (nn : Byte) (s : State) : Result :=
  .next (advance (writeV (countDraw s) x (rnd &&& nn)))

/-- `Cxnn` RND Vx, nn (R135): the random input is the free value of this draw (D12). -/
def execRnd (x : RegIdx) (nn : Byte) (s : State) : Result :=
  loadRandom (Config.randomByte s.draws) x nn s

end Sys2Proof.Machine
end

