-- ==== Sys2Proof/Machine/Control.lean ====
section
/-! DEFINITION. The control-flow instructions and the no-op (40_control_flow.md R101 to R110). -/

namespace Sys2Proof.Machine

/-- `00EE` RET (R101): "decrement SP, set `PC` to the popped address, then advance by 2". -/
def execRet (s : State) : Result :=
  match pop s with
  | some (a, t) => .next (advance (jumpTo a t))
  | none => raise .stackUnderflow s

/-- `1nnn` JP nnn (R103). -/
def execJp (nnn : Addr12) (s : State) : Result := .next (jumpTo (zextAddr nnn) s)

/-- `2nnn` CALL nnn (R102): pushes "the address of this CALL, not of the next instruction". -/
def execCall (nnn : Addr12) (s : State) : Result :=
  match push s.pc s with
  | some t => .next (jumpTo (zextAddr nnn) t)
  | none => raise .stackOverflow s

/-- `Bnnn` JP V0, nnn (R104): a 16-bit sum, not reduced modulo 4096 (D29). -/
def execJpV0 (nnn : Addr12) (s : State) : Result :=
  .next (jumpTo (zextByte (readV s 0#4) + zextAddr nnn) s)

/-- `3xnn` SE Vx, nn (R105). -/
def execSeImm (x : RegIdx) (nn : Byte) (s : State) : Result := .next (skipIf (readV s x == nn) s)

/-- `4xnn` SNE Vx, nn (R106). -/
def execSneImm (x : RegIdx) (nn : Byte) (s : State) : Result := .next (skipIf (readV s x != nn) s)

/-- `5xy0` SE Vx, Vy (R107). -/
def execSeReg (x y : RegIdx) (s : State) : Result := .next (skipIf (readV s x == readV s y) s)

/-- `9xy0` SNE Vx, Vy (R108). -/
def execSneReg (x y : RegIdx) (s : State) : Result := .next (skipIf (readV s x != readV s y) s)

/-- `NOP`, every unmatched word (R110). -/
def execNop (s : State) : Result := .next (advance s)

end Sys2Proof.Machine
end

