-- ==== Sys2Proof/Machine/Display.lean ====
section
/-! DEFINITION. The display instructions (43_display.md R150 to R155). -/

namespace Sys2Proof.Machine

/-- `00E0` CLS (R150). -/
def execCls (s : State) : Result := .next (advance (setScreen clearScreen s))

/-- `Dxyn` DRW Vx, Vy, n (R151): the coordinates are read before `VF` is written (R155, D6); with `n = 0` no
byte is read and no fault is possible (D32). -/
def execDrw (x y : RegIdx) (n : Nibble) (s : State) : Result :=
  if inMemory s.i n.toNat then
    let c := drawRows s.mem (effAddr s 0) (readV s x).toNat (readV s y).toNat (s.fb, false) n.toNat
    .next (advance (writeV (setScreen c.1 s) VF (flagByte c.2)))
  else raise .outOfBounds s

end Sys2Proof.Machine
end

