-- ==== Sys2Proof/Machine/Index.lean ====
section
/-! DEFINITION. Index-register and memory instructions and the BCD converter (42_memory_index.md R140 to R146).
The range of each access is checked whole before the first byte moves (20_memory.md R56). -/

namespace Sys2Proof.Machine

/-- `Annn` LD I, nnn (R140). -/
def execLdI (nnn : Addr12) (s : State) : Result := .next (advance (setI (zextAddr nnn) s))

/-- `Fx1E` ADD I, Vx (R141): 16-bit accumulation, no flag (D29). -/
def execAddI (x : RegIdx) (s : State) : Result :=
  .next (advance (setI (s.i + zextByte (readV s x)) s))

/-- `Fx29` LD F, Vx (R142). -/
def execLdF (x : RegIdx) (s : State) : Result := .next (advance (setI (glyphAddr (readV s x)) s))

/-- `Fx33` LD B, Vx (R143). -/
def execLdB (x : RegIdx) (s : State) : Result :=
  if inMemory s.i 3 then .next (advance (storeBytes (effAddr s 0) (bcdDigits (readV s x)) s))
  else raise .outOfBounds s

/-- `Fx55` LD [I], Vx (R144): `I` is unchanged (D8). -/
def execLdMemVx (x : RegIdx) (s : State) : Result :=
  if inMemory s.i (x.toNat + 1) then .next (advance (storeBytes (effAddr s 0) (firstRegs s x) s))
  else raise .outOfBounds s

/-- `Fx65` LD Vx, [I] (R145): `I` is unchanged (D8). -/
def execLdVxMem (x : RegIdx) (s : State) : Result :=
  if inMemory s.i (x.toNat + 1) then .next (advance (loadRegs (effAddr s 0) s (x.toNat + 1)))
  else raise .outOfBounds s

end Sys2Proof.Machine
end

