-- ==== Sys2Proof/Machine/TimerKey.lean ====
section
/-! DEFINITION. Timer and keypad instructions (44_timer_key.md R160 to R166). -/

namespace Sys2Proof.Machine

/-- `Ex9E` SKP Vx (R160): the latch is indexed by the low nibble of `Vx` (D9). -/
def execSkp (x : RegIdx) (s : State) : Result :=
  .next (skipIf (readKey s (lowNibble (readV s x))) s)

/-- `ExA1` SKNP Vx (R161). -/
def execSknp (x : RegIdx) (s : State) : Result :=
  .next (skipIf (!readKey s (lowNibble (readV s x))) s)

/-- `Fx07` LD Vx, DT (R162). -/
def execLdVxDT (x : RegIdx) (s : State) : Result := .next (advance (writeV s x s.dt))

/-- `Fx0A` LD Vx, K (R166): the core begins to wait; `PC` stays at this instruction. The wait is ended by a
`key_down` event (R167, Machine/Events.lean). -/
def execLdVxK (x : RegIdx) (s : State) : Result := .next (awaitKey x s)

/-- `Fx15` LD DT, Vx (R163). -/
def execLdDTVx (x : RegIdx) (s : State) : Result := .next (advance (setDT (readV s x) s))

/-- `Fx18` LD ST, Vx (R165). -/
def execLdSTVx (x : RegIdx) (s : State) : Result := .next (advance (setST (readV s x) s))

end Sys2Proof.Machine
end

