-- ==== Sys2Proof/Machine/Cycle.lean ====
section
/-! DEFINITION. The fetch (20_memory.md R52, R55, R58) and the `step` event with its random input and its
output `FrameDirty` (45_cycle_and_host_events.md R171, R172). -/

namespace Sys2Proof.Machine

/-- `MemRead(PC, 2)` (R52): big-endian, no alignment (R59); nothing when `PC > 4094` (R55, D3). -/
def fetch (s : State) : Option Word :=
  if inMemory s.pc 2 then
    some (wordOfBytes (Memory.read s.mem s.pc.toNat) (Memory.read s.mem (s.pc.toNat + 1)))
  else none

/-- An instruction in a `step` event whose random input is `rnd`: only `Cxnn` reads it (R135). -/
def execWith (rnd : Byte) (i : Instr) (s : State) : Result :=
  match i with
  | .rnd x nn => loadRandom rnd x nn s
  | other => exec other s

/-- The `step(rnd)` event (R171). -/
def stepWith (rnd : Byte) (s : State) : Result :=
  if s.fault.isSome then .next s
  else if s.wait then .next s
  else
    match fetch s with
    | none => raise .outOfBounds s
    | some w => execWith rnd (decode w) s

/-- The instructions whose completion makes a `step` report `FrameDirty` (R172). -/
def drawsScreen : Instr → Bool
  | .cls => true
  | .drw _ _ _ => true
  | _ => false

/-- An instruction ran to completion: a next state with no fault latched. -/
def completed : Result → Bool
  | .next t => t.fault.isNone
  | .fault _ => false
  | .refused _ => false

/-- The output `FrameDirty` of a `step` event from `s` (R172, D18): true iff it executes `00E0` or `Dxyn` to
completion. It does not depend on the random input. -/
def frameDirty (s : State) : Bool :=
  if s.fault.isSome then false
  else if s.wait then false
  else
    match fetch s with
    | none => false
    | some w => drawsScreen (decode w) && completed (exec (decode w) s)

end Sys2Proof.Machine
end

