-- ==== Sys2Proof/Machine/Events.lean ====
section
/-! DEFINITION. The six host events and the outputs of the core (45_cycle_and_host_events.md R170 to R181,
44_timer_key.md R164, R167, 70_reset_and_hazards.md R220). The host issues them in any order (R179). -/

namespace Sys2Proof.Machine

/-- The events of R170. A key code is 4 bits: "The interface cannot carry a code above 15" (R176, D27). -/
inductive Event where
  | reset
  | load (bytes : List Byte)
  | step (rnd : Byte)
  | tickTimers
  | keyDown (code : Nibble)
  | keyUp (code : Nibble)
  deriving DecidableEq, Repr

/-- The result of a `load` event (R174). -/
inductive LoadResult where
  | ok
  | romTooLarge
  deriving DecidableEq, Repr

/-- What an event returns to the host (R170). -/
inductive Output where
  | none
  | loaded (r : LoadResult)
  | frameDirty (b : Bool)
  deriving DecidableEq, Repr

/-- The `reset` event (R220): every piece of the spec's state takes its reset value. The model's own counter
of random draws goes on, so that no draw after a reset is tied to a draw before it. -/
def resetEvent (s : State) : State := { State.reset with draws := s.draws }

/-- The state after a `load` event (R174): all bytes from `0x200` on, or nothing when there are too many. -/
def loadRom (bytes : List Byte) (s : State) : State :=
  if bytes.length ≤ Config.romMax then storeBytes Config.romBase bytes s else s

/-- The result of a `load` event (R174). -/
def loadResult (bytes : List Byte) : LoadResult :=
  if bytes.length ≤ Config.romMax then .ok else .romTooLarge

/-- One timer tick, "clamped at 0" (R164). -/
def countDown (b : Byte) : Byte := if b = 0 then 0 else b - 1

/-- The `tick_timers` event (R164): acts in every state. -/
def tickTimers (s : State) : State := { s with dt := countDown s.dt, st := countDown s.st }

/-- `ResolveKeyWait(k)` (R167). -/
def resolveKeyWait (k : Nibble) (s : State) : State :=
  advance { writeV s s.waitX (zextKey k) with wait := false }

/-- The `key_down(k)` event (R176): an unset-to-set transition resolves a pending wait; the latch bit is set in
any case. -/
def keyDown (k : Nibble) (s : State) : State :=
  if !readKey s k && s.wait then writeKey (resolveKeyWait k s) k true else writeKey s k true

/-- The `key_up(k)` event (R177). -/
def keyUp (k : Nibble) (s : State) : State := writeKey s k false

/-- The effect of an event. -/
def handle (e : Event) (s : State) : Result :=
  match e with
  | .reset => .next (resetEvent s)
  | .load bytes => .next (loadRom bytes s)
  | .step rnd => stepWith rnd s
  | .tickTimers => .next (tickTimers s)
  | .keyDown k => .next (keyDown k s)
  | .keyUp k => .next (keyUp k s)

/-- The output of an event issued in a state (R170, R172, R174). -/
def output (e : Event) (s : State) : Output :=
  match e with
  | .reset => .none
  | .load bytes => .loaded (loadResult bytes)
  | .step _ => .frameDirty (frameDirty s)
  | .tickTimers => .none
  | .keyDown _ => .none
  | .keyUp _ => .none

/-- A finite sequence of events, in order (R179). -/
def runEvents : List Event → State → Result
  | [], s => .next s
  | e :: es, s =>
    match handle e s with
    | .next t => runEvents es t
    | .fault f => .fault f
    | .refused r => .refused r

/-- The output `sound_timer_active`: `ST > 0` (R35). -/
def soundTimerActive (s : State) : Bool := 0 < s.st.toNat

/-- The output `framebuffer` (R170). -/
def framebuffer (s : State) : Screen := s.fb

/-- The output `FAULT` as its numeric code (R40). -/
def faultCode (s : State) : Nat :=
  match s.fault with
  | .none => 0
  | some .stackOverflow => 1
  | some .stackUnderflow => 2
  | some .outOfBounds => 3

end Sys2Proof.Machine
end

