-- ==== Sys2Proof/Machine/Step.lean ====
section
/-! DEFINITION. The step of the core: the `step(rnd)` event of 45_cycle_and_host_events.md R171 whose random
input is the free value of the next draw. -/

namespace Sys2Proof.Machine

/-- One `step` event. The other events are in Machine/Events.lean. -/
def step (s : State) : Host.Outcome State Fault Refusal := stepWith (Config.randomByte s.draws) s

/-- The address the fetch of `withFetchWord` uses: `PC`, or the program's base where no word can be fetched
at `PC` (R55). -/
def fetchAddr (s : State) : Word := if inMemory s.pc 2 then s.pc else 0x200#16

/-- `s` made to fetch the word `w` next: its two bytes big-endian at `PC` (R58). A state that would not fetch
(faulted, waiting, or `PC` beyond memory) is first made one that does; from reset only memory changes. -/
def State.withFetchWord (s : State) (nbits w : Nat) : State :=
  storeBytes (fetchAddr s).toNat (bytesOfWord (BitVec.ofNat 16 (w % 2 ^ nbits)))
    { s with pc := fetchAddr s, wait := false, fault := none }

end Sys2Proof.Machine
end

