-- ==== Sys2Proof/Safety.lean ====
section
/-! DEFINITION. The vocabulary of the claims: when a core runs, what it means for a change to be framed, and
the invariant of 10_state.md R43. -/

namespace Sys2Proof.Machine

/-- The core is neither faulted nor waiting, so a `step` goes past the two tests at its top (R171). -/
def Running (s : State) : Prop := s.fault = none ∧ s.wait = false

/-- "A faulted state is never a good final state of a program: a model treats it as 'gone wrong'" (R194). -/
def GoneWrong (s : State) : Prop := s.fault ≠ none

/-- The pieces of state other than registers, memory and `PC`. `draws` is the model's own. -/
inductive Part where
  | index
  | stack
  | delay
  | sound
  | keypad
  | screen
  | waiting
  | faultLatch
  | draws
  deriving DecidableEq, Repr

/-- The frame of a change from `s` to `t`: everything is as before except the registers `regs` names, the bytes
of memory at the addresses `bytes` names, the parts listed, and `PC`. -/
structure FrameExcept (regs : RegIdx → Prop) (bytes : Nat → Prop) (parts : List Part) (s t : State) : Prop where
  /-- registers not named are unchanged -/
  regsSame : ∀ r, ¬ regs r → readV t r = readV s r
  /-- every byte of memory not named reads as before -/
  memSame : ∀ a, ¬ bytes a → Memory.read t.mem a = Memory.read s.mem a
  /-- `I` -/
  indexSame : .index ∉ parts → t.i = s.i
  /-- `SP` and every stack cell -/
  stackSame : .stack ∉ parts → t.sp = s.sp ∧ t.stack = s.stack
  /-- `DT` -/
  delaySame : .delay ∉ parts → t.dt = s.dt
  /-- `ST` -/
  soundSame : .sound ∉ parts → t.st = s.st
  /-- `KEY` -/
  keypadSame : .keypad ∉ parts → t.key = s.key
  /-- every pixel of `FB` -/
  screenSame : .screen ∉ parts → ∀ x y, pixel t.fb x y = pixel s.fb x y
  /-- `WAIT` and `WAIT_X` -/
  waitingSame : .waiting ∉ parts → t.wait = s.wait ∧ t.waitX = s.waitX
  /-- `FAULT` -/
  faultSame : .faultLatch ∉ parts → t.fault = s.fault
  /-- the model's counter of random draws -/
  drawsSame : .draws ∉ parts → t.draws = s.draws

/-- No register, or no byte of memory. -/
def nothing {α : Type} : α → Prop := fun _ => False

/-- The bytes of an access of length `k` at `base` (R146). -/
def bytesAt (base k : Nat) : Nat → Prop := fun a => base ≤ a ∧ a < base + k

/-- The registers an instruction may write: the destination its rule names, `VF` for the six flag writers of R26,
and `V0..Vx` for `Fx65` (R145). `Fx0A` writes none: its register is written by the `key_down` event (R167). -/
def mayWrite (i : Instr) (r : RegIdx) : Bool :=
  match i with
  | .cls => false
  | .ret => false
  | .jp _ => false
  | .call _ => false
  | .seImm _ _ => false
  | .sneImm _ _ => false
  | .seReg _ _ _ => false
  | .ldImm x _ => r == x
  | .addImm x _ => r == x
  | .ldReg x _ => r == x
  | .orReg x _ => r == x
  | .andReg x _ => r == x
  | .xorReg x _ => r == x
  | .addReg x _ => r == x || r == VF
  | .subReg x _ => r == x || r == VF
  | .shrReg x _ => r == x || r == VF
  | .subnReg x _ => r == x || r == VF
  | .shlReg x _ => r == x || r == VF
  | .sneReg _ _ _ => false
  | .ldI _ => false
  | .jpV0 _ => false
  | .rnd x _ => r == x
  | .drw _ _ _ => r == VF
  | .skp _ => false
  | .sknp _ => false
  | .ldVxDT x => r == x
  | .ldVxK _ => false
  | .ldDTVx _ => false
  | .ldSTVx _ => false
  | .addI _ => false
  | .ldF _ => false
  | .ldB _ => false
  | .ldMemVx _ => false
  | .ldVxMem x => r.toNat ≤ x.toNat
  | .nop _ => false

/-- Item 6 of R43: every live stack cell holds the address of a `2nnn`, at most 4094. -/
def LiveCellsFetchable (s : State) : Prop :=
  ∀ k (h : k < 16), k < s.sp.val → (s.stack[k]'h).toNat ≤ 4094

/-- The invariant of R43 over one state: `PC <= 0x10FE` (item 2), waiting and faulted exclude each other (item 3),
live stack cells are at most 4094 (item 6); with it, that a waiting core stands at a fetchable address (R39)
and that memory is in its canonical form. `SP <= 16` (item 1) and the widths (item 2) hold by the types. -/
structure CoreInv (s : State) : Prop where
  memWf : Memory.wf s.mem
  pcBound : s.pc.toNat ≤ 0x10FE
  notBoth : ¬ (s.wait = true ∧ s.fault ≠ none)
  waitFetchable : s.wait = true → s.pc.toNat ≤ 4094
  cellsFetchable : LiveCellsFetchable s

end Sys2Proof.Machine
end

