-- ==== Sys2Proof/Certificates/Slice0/Obligations.lean ====
section
/-! DEFINITION. The statements for the provers, from the numbered rules of spec/. `FrameExcept` says what each
instruction leaves unchanged; where a clause rests on a decision D<n> of 92_eei_decisions.md or on general knowledge
G<n> of 93_implementation_defined.md, the docstring names it. -/

open Sys2Proof Sys2Proof.Machine

/-! ## Encoding -/

/-- Words written out from R86 decode to the instructions they stand for (tests E1 to E20 of 95_test_vectors.md; the
numbers of family `8` other than 4 and 5 rest on G2, family `0` on D10, the ignored nibbles on D11 and D7). -/
def Obligations.FewSpecWordsDecode : Prop :=
  decode 0x00E0#16 = .cls ∧ decode 0x00EE#16 = .ret ∧ decode 0x1234#16 = .jp 0x234#12 ∧
  decode 0x6A7F#16 = .ldImm 0xA#4 0x7F#8 ∧ decode 0x8124#16 = .addReg 0x1#4 0x2#4 ∧
  decode 0x8AB6#16 = .shrReg 0xA#4 0xB#4 ∧ decode 0x512F#16 = .seReg 0x1#4 0x2#4 0xF#4 ∧
  decode 0xD7A9#16 = .drw 0x7#4 0xA#4 0x9#4 ∧ decode 0xE19E#16 = .skp 0x1#4 ∧
  decode 0xFF65#16 = .ldVxMem 0xF#4 ∧ decode 0x01E0#16 = .nop 0x01E0#16 ∧
  decode 0x8AB9#16 = .nop 0x8AB9#16 ∧ decode 0xFFFF#16 = .nop 0xFFFF#16

/-- Decode and encode agree: no bit of any well-formed instruction is dropped, every operand at every value. -/
def Obligations.DecodeOfEncodeGivesTheInstruction : Prop :=
  ∀ i : Instr, i.wf = true → decode (encode i) = i

/-- Every one of the 65536 words is one well-formed instruction, and encodes back to itself (R85: decode is total;
R90 says which words are no defined instruction; D10, D11 for families `0`, `5`, `9`). -/
def Obligations.EveryWordIsOneWellFormedInstruction : Prop :=
  ∀ w : Word, (decode w).wf = true ∧ encode (decode w) = w

/-- The decode procedure of R84 follows the mask and match columns of R86's table on every word (G2, D10, D11). -/
def Obligations.DecodeFollowsTheOpcodeMap : Prop :=
  ∀ w : Word, (decode w).row = tableRow w

/-! ## Control flow -/

/-- R103: `1nnn` sets `PC` to `nnn`. -/
def Obligations.JumpSetsPc : Prop :=
  ∀ (nnn : Addr12) (s : State), decode (0x1#4 ++ nnn) = .jp nnn ∧
    ∃ t, exec (.jp nnn) s = .next t ∧ t.pc.toNat = nnn.toNat ∧ FrameExcept nothing nothing [] s t

/-- R102: `2nnn` pushes its own address and jumps; with 16 live cells it raises `StackOverflow`. -/
def Obligations.CallPushesItsAddressAndJumps : Prop :=
  ∀ (nnn : Addr12) (s : State), decode (0x2#4 ++ nnn) = .call nnn ∧
    (∀ h : s.sp.val < 16, ∃ t, exec (.call nnn) s = .next t ∧ t.stack[s.sp.val] = s.pc ∧
      (∀ k (hk : k < 16), k ≠ s.sp.val → t.stack[k] = s.stack[k]) ∧
      t.sp.val = s.sp.val + 1 ∧ t.pc.toNat = nnn.toNat ∧ FrameExcept nothing nothing [.stack] s t) ∧
    (s.sp.val = 16 → exec (.call nnn) s = .next { s with fault := some .stackOverflow })

/-- R101: `00EE` pops an address and sets `PC` to it plus 2; the popped cell keeps its value; with no live cell it
raises `StackUnderflow`. -/
def Obligations.ReturnPopsAddressPlusTwo : Prop :=
  ∀ s : State, decode 0x00EE#16 = .ret ∧
    (∀ h : 0 < s.sp.val, ∃ t, exec .ret s = .next t ∧ t.sp.val + 1 = s.sp.val ∧ t.stack = s.stack ∧
      t.pc = s.stack[s.sp.val - 1]'(by omega) + 2#16 ∧ FrameExcept nothing nothing [.stack] s t) ∧
    (s.sp.val = 0 → exec .ret s = .next { s with fault := some .stackUnderflow })

/-- R104: `Bnnn` sets `PC` to the full sum `V0 + nnn`, which never wraps; that it is not reduced to 12 bits is the
spec's decision D29. -/
def Obligations.JumpWithOffsetAddsV0 : Prop :=
  ∀ (nnn : Addr12) (s : State), decode (0xB#4 ++ nnn) = .jpV0 nnn ∧
    ∃ t, exec (.jpV0 nnn) s = .next t ∧ t.pc.toNat = (readV s 0#4).toNat + nnn.toNat ∧
      t.pc.toNat ≤ 0x10FE ∧ FrameExcept nothing nothing [] s t

/-- R105 to R108: the four comparison skips, for every value of the ignored nibble. The polarity of each pair is
general knowledge G3, the ignored nibble decision D11. -/
def Obligations.ComparisonSkipsPassOneWord : Prop :=
  ∀ (x y : RegIdx) (nn : Byte) (z : Nibble) (s : State),
    decode (0x3#4 ++ x ++ nn) = .seImm x nn ∧ decode (0x4#4 ++ x ++ nn) = .sneImm x nn ∧
    decode (0x5#4 ++ x ++ y ++ z) = .seReg x y z ∧ decode (0x9#4 ++ x ++ y ++ z) = .sneReg x y z ∧
    (∃ t, exec (.seImm x nn) s = .next t ∧ FrameExcept nothing nothing [] s t ∧
      (readV s x = nn → t.pc = s.pc + 4#16) ∧ (readV s x ≠ nn → t.pc = s.pc + 2#16)) ∧
    (∃ t, exec (.sneImm x nn) s = .next t ∧ FrameExcept nothing nothing [] s t ∧
      (readV s x ≠ nn → t.pc = s.pc + 4#16) ∧ (readV s x = nn → t.pc = s.pc + 2#16)) ∧
    (∃ t, exec (.seReg x y z) s = .next t ∧ FrameExcept nothing nothing [] s t ∧
      (readV s x = readV s y → t.pc = s.pc + 4#16) ∧ (readV s x ≠ readV s y → t.pc = s.pc + 2#16)) ∧
    (∃ t, exec (.sneReg x y z) s = .next t ∧ FrameExcept nothing nothing [] s t ∧
      (readV s x ≠ readV s y → t.pc = s.pc + 4#16) ∧ (readV s x = readV s y → t.pc = s.pc + 2#16))

/-- R110: an unmatched word (R90) is a no-op that advances `PC` by 2 and reports no `FrameDirty`. -/
def Obligations.UnmatchedWordOnlyAdvances : Prop :=
  ∀ (w : Word) (s : State), unmatched w = true → decode w = .nop w ∧
    (∃ t, exec (.nop w) s = .next t ∧ t.pc = s.pc + 2#16 ∧ FrameExcept nothing nothing [] s t) ∧
    (fetch s = some w → frameDirty s = false)

/-! ## Arithmetic -/

/-- R120: `6xnn` stores `nn` in `Vx`. -/
def Obligations.LoadImmediateStoresByte : Prop :=
  ∀ (x : RegIdx) (nn : Byte) (s : State), decode (0x6#4 ++ x ++ nn) = .ldImm x nn ∧
    ∃ t, exec (.ldImm x nn) s = .next t ∧ readV t x = nn ∧ t.pc = s.pc + 2#16 ∧
      FrameExcept (fun r => r = x) nothing [] s t

/-- R121: `7xnn` adds modulo 256 and writes no flag. -/
def Obligations.AddImmediateWritesNoFlag : Prop :=
  ∀ (x : RegIdx) (nn : Byte) (s : State), decode (0x7#4 ++ x ++ nn) = .addImm x nn ∧
    ∃ t, exec (.addImm x nn) s = .next t ∧ (readV t x).toNat = ((readV s x).toNat + nn.toNat) % 256 ∧
      t.pc = s.pc + 2#16 ∧ FrameExcept (fun r => r = x) nothing [] s t

/-- R122 to R125: assign, OR, AND and XOR bit by bit, no flag. The sub-operation numbers are general knowledge G2. -/
def Obligations.AssignAndBitwiseWriteNoFlag : Prop :=
  ∀ (x y : RegIdx) (s : State),
    decode (0x8#4 ++ x ++ y ++ 0x0#4) = .ldReg x y ∧ decode (0x8#4 ++ x ++ y ++ 0x1#4) = .orReg x y ∧
    decode (0x8#4 ++ x ++ y ++ 0x2#4) = .andReg x y ∧ decode (0x8#4 ++ x ++ y ++ 0x3#4) = .xorReg x y ∧
    (∃ t, exec (.ldReg x y) s = .next t ∧ t.pc = s.pc + 2#16 ∧ FrameExcept (fun r => r = x) nothing [] s t ∧
      readV t x = readV s y) ∧
    (∃ t, exec (.orReg x y) s = .next t ∧ t.pc = s.pc + 2#16 ∧ FrameExcept (fun r => r = x) nothing [] s t ∧
      ∀ k < 8, (readV t x).getLsbD k = ((readV s x).getLsbD k || (readV s y).getLsbD k)) ∧
    (∃ t, exec (.andReg x y) s = .next t ∧ t.pc = s.pc + 2#16 ∧ FrameExcept (fun r => r = x) nothing [] s t ∧
      ∀ k < 8, (readV t x).getLsbD k = ((readV s x).getLsbD k && (readV s y).getLsbD k)) ∧
    (∃ t, exec (.xorReg x y) s = .next t ∧ t.pc = s.pc + 2#16 ∧ FrameExcept (fun r => r = x) nothing [] s t ∧
      ∀ k < 8, (readV t x).getLsbD k = ((readV s x).getLsbD k != (readV s y).getLsbD k))

/-- R126: `8xy4` adds modulo 256; `VF` is the carry, also when the destination is `VF`. -/
def Obligations.AddSetsCarry : Prop :=
  ∀ (x y : RegIdx) (s : State), decode (0x8#4 ++ x ++ y ++ 0x4#4) = .addReg x y ∧
    ∃ t, exec (.addReg x y) s = .next t ∧
      (x ≠ VF → (readV t x).toNat = ((readV s x).toNat + (readV s y).toNat) % 256) ∧
      (255 < (readV s x).toNat + (readV s y).toNat → readV t VF = 1#8) ∧
      ((readV s x).toNat + (readV s y).toNat ≤ 255 → readV t VF = 0#8) ∧
      t.pc = s.pc + 2#16 ∧ FrameExcept (fun r => r = x ∨ r = VF) nothing [] s t

/-- R127: `8xy5` subtracts `Vy` from `Vx` modulo 256; `VF` is the not-borrow, also when the destination is `VF`. -/
def Obligations.SubtractSetsNotBorrow : Prop :=
  ∀ (x y : RegIdx) (s : State), decode (0x8#4 ++ x ++ y ++ 0x5#4) = .subReg x y ∧
    ∃ t, exec (.subReg x y) s = .next t ∧
      ((readV s y).toNat ≤ (readV s x).toNat →
        (x ≠ VF → (readV t x).toNat = (readV s x).toNat - (readV s y).toNat) ∧ readV t VF = 1#8) ∧
      ((readV s x).toNat < (readV s y).toNat →
        (x ≠ VF → (readV t x).toNat + (readV s y).toNat = (readV s x).toNat + 256) ∧ readV t VF = 0#8) ∧
      t.pc = s.pc + 2#16 ∧ FrameExcept (fun r => r = x ∨ r = VF) nothing [] s t

/-- R129: `8xy7` subtracts `Vx` from `Vy`, into `Vx`; `VF` is the not-borrow. Number 7 is general knowledge G2. -/
def Obligations.ReversedSubtractSetsNotBorrow : Prop :=
  ∀ (x y : RegIdx) (s : State), decode (0x8#4 ++ x ++ y ++ 0x7#4) = .subnReg x y ∧
    ∃ t, exec (.subnReg x y) s = .next t ∧
      ((readV s x).toNat ≤ (readV s y).toNat →
        (x ≠ VF → (readV t x).toNat = (readV s y).toNat - (readV s x).toNat) ∧ readV t VF = 1#8) ∧
      ((readV s y).toNat < (readV s x).toNat →
        (x ≠ VF → (readV t x).toNat + (readV s x).toNat = (readV s y).toNat + 256) ∧ readV t VF = 0#8) ∧
      t.pc = s.pc + 2#16 ∧ FrameExcept (fun r => r = x ∨ r = VF) nothing [] s t

/-- R128, R130: the shifts move `Vx` by one and leave the bit shifted out in `VF`, for every value of the ignored
field. That `Vx` is the operand is decision D7; numbers 6 and E are general knowledge G2. -/
def Obligations.ShiftsMoveVxByOneBit : Prop :=
  ∀ (x : RegIdx) (z : Nibble) (s : State),
    decode (0x8#4 ++ x ++ z ++ 0x6#4) = .shrReg x z ∧ decode (0x8#4 ++ x ++ z ++ 0xE#4) = .shlReg x z ∧
    (∃ t, exec (.shrReg x z) s = .next t ∧ (x ≠ VF → (readV t x).toNat = (readV s x).toNat / 2) ∧
      (readV t VF).toNat = (readV s x).toNat % 2 ∧
      t.pc = s.pc + 2#16 ∧ FrameExcept (fun r => r = x ∨ r = VF) nothing [] s t) ∧
    (∃ t, exec (.shlReg x z) s = .next t ∧ (x ≠ VF → (readV t x).toNat = (readV s x).toNat * 2 % 256) ∧
      (readV t VF).toNat = (readV s x).toNat / 128 ∧
      t.pc = s.pc + 2#16 ∧ FrameExcept (fun r => r = x ∨ r = VF) nothing [] s t)

/-- R135: `Cxnn` leaves the random input masked by `nn`. That the input is an unconstrained free draw is decision D12;
it is the free value of log entry 2, and the statement holds for every value of it and of the counter `draws`. -/
def Obligations.RandomIsMaskedByImmediate : Prop :=
  ∀ (x : RegIdx) (nn : Byte) (s : State), decode (0xC#4 ++ x ++ nn) = .rnd x nn ∧
    ∃ t, exec (.rnd x nn) s = .next t ∧ readV t x = (Config.randomByte s.draws &&& nn) ∧
      (∀ k < 8, nn.getLsbD k = false → (readV t x).getLsbD k = false) ∧
      t.draws = s.draws + 1 ∧ t.pc = s.pc + 2#16 ∧ FrameExcept (fun r => r = x) nothing [.draws] s t

/-- R135: the random input of a `step` event is read by `Cxnn` only, and by `Cxnn` for every value of it (D12). -/
def Obligations.RandomInputReachesOnlyRnd : Prop :=
  (∀ (rnd rnd' : Byte) (s : State), (∀ w x nn, fetch s = some w → decode w ≠ .rnd x nn) →
    stepWith rnd s = stepWith rnd' s) ∧
  (∀ (rnd : Byte) (s : State) (x : RegIdx) (nn : Byte), Running s → fetch s = some (0xC#4 ++ x ++ nn) →
    ∃ t, stepWith rnd s = .next t ∧ readV t x = (rnd &&& nn) ∧ t.pc = s.pc + 2#16 ∧
      FrameExcept (fun r => r = x) nothing [.draws] s t)

/-! ## Index register and memory -/

/-- R140: `Annn` sets `I` to `nnn`. -/
def Obligations.SetIndexStoresAddress : Prop :=
  ∀ (nnn : Addr12) (s : State), decode (0xA#4 ++ nnn) = .ldI nnn ∧
    ∃ t, exec (.ldI nnn) s = .next t ∧ t.i.toNat = nnn.toNat ∧ t.pc = s.pc + 2#16 ∧
      FrameExcept nothing nothing [.index] s t

/-- R141: `Fx1E` adds `Vx` to `I` modulo 65536 and writes no flag. The 16-bit wrap is decision D29. -/
def Obligations.AddIndexWrapsAtSixteenBits : Prop :=
  ∀ (x : RegIdx) (s : State), decode (0xF#4 ++ x ++ 0x1E#8) = .addI x ∧
    ∃ t, exec (.addI x) s = .next t ∧ t.i.toNat = (s.i.toNat + (readV s x).toNat) % 65536 ∧
      t.pc = s.pc + 2#16 ∧ FrameExcept nothing nothing [.index] s t

/-- R142: `Fx29` sets `I` to `5 * d`, `d` the low nibble of `Vx`. -/
def Obligations.FontAddressIsFiveTimesDigit : Prop :=
  ∀ (x : RegIdx) (s : State), decode (0xF#4 ++ x ++ 0x29#8) = .ldF x ∧
    ∃ t, exec (.ldF x) s = .next t ∧ t.i.toNat = 5 * ((readV s x).toNat % 16) ∧
      t.pc = s.pc + 2#16 ∧ FrameExcept nothing nothing [.index] s t

/-- R143: `Fx33` stores the three decimal digits at `I`, `I+1`, `I+2`; with `I > 4093` it raises `OutOfBounds` and
stores nothing. -/
def Obligations.BcdStoresThreeDigits : Prop :=
  ∀ (x : RegIdx) (s : State), decode (0xF#4 ++ x ++ 0x33#8) = .ldB x ∧
    (s.i.toNat + 2 ≤ 4095 → ∃ t, exec (.ldB x) s = .next t ∧
      (Memory.read t.mem (effAddr s 0)).toNat = (readV s x).toNat / 100 ∧
      (Memory.read t.mem (effAddr s 1)).toNat = (readV s x).toNat / 10 % 10 ∧
      (Memory.read t.mem (effAddr s 2)).toNat = (readV s x).toNat % 10 ∧
      t.pc = s.pc + 2#16 ∧ FrameExcept nothing (bytesAt (effAddr s 0) 3) [] s t) ∧
    (4095 < s.i.toNat + 2 → exec (.ldB x) s = .next { s with fault := some .outOfBounds })

/-- R144: `Fx55` stores `V0..Vx` from `I` on; out of range it raises `OutOfBounds` and stores nothing. That `I` is
unchanged is decision D8, the fault decision D2, all or nothing decision D26. -/
def Obligations.RegisterDumpStoresV0ToVx : Prop :=
  ∀ (x : RegIdx) (s : State), decode (0xF#4 ++ x ++ 0x55#8) = .ldMemVx x ∧
    (s.i.toNat + x.toNat ≤ 4095 → ∃ t, exec (.ldMemVx x) s = .next t ∧
      (∀ r : RegIdx, r.toNat ≤ x.toNat → Memory.read t.mem (effAddr s r.toNat) = readV s r) ∧
      t.pc = s.pc + 2#16 ∧ FrameExcept nothing (bytesAt (effAddr s 0) (x.toNat + 1)) [] s t) ∧
    (4095 < s.i.toNat + x.toNat → exec (.ldMemVx x) s = .next { s with fault := some .outOfBounds })

/-- R145: `Fx65` loads `V0..Vx` from `I` on; out of range it raises `OutOfBounds` and loads nothing. That `I` is
unchanged is decision D8, the fault decision D2, all or nothing decision D26. -/
def Obligations.RegisterLoadFillsV0ToVx : Prop :=
  ∀ (x : RegIdx) (s : State), decode (0xF#4 ++ x ++ 0x65#8) = .ldVxMem x ∧
    (s.i.toNat + x.toNat ≤ 4095 → ∃ t, exec (.ldVxMem x) s = .next t ∧
      (∀ r : RegIdx, r.toNat ≤ x.toNat → readV t r = Memory.read s.mem (effAddr s r.toNat)) ∧
      t.pc = s.pc + 2#16 ∧ FrameExcept (fun r => r.toNat ≤ x.toNat) nothing [] s t) ∧
    (4095 < s.i.toNat + x.toNat → exec (.ldVxMem x) s = .next { s with fault := some .outOfBounds })

/-- R147, which the spec derives: a dump followed by a load with the same `x` and `I` restores every register, and the
three digits of a BCD conversion make up the value. -/
def Obligations.DumpLoadAndBcdRoundTrips : Prop :=
  (∀ (x : RegIdx) (s : State), s.i.toNat + x.toNat ≤ 4095 →
    ∃ t u, exec (.ldMemVx x) s = .next t ∧ exec (.ldVxMem x) t = .next u ∧
      (∀ r, readV u r = readV s r) ∧ u.i = s.i ∧
      ∀ r : RegIdx, r.toNat ≤ x.toNat → Memory.read u.mem (effAddr s r.toNat) = readV s r) ∧
  (∀ (x : RegIdx) (s : State), s.i.toNat + 2 ≤ 4095 →
    ∃ t, exec (.ldB x) s = .next t ∧
      100 * (Memory.read t.mem (effAddr s 0)).toNat + 10 * (Memory.read t.mem (effAddr s 1)).toNat +
        (Memory.read t.mem (effAddr s 2)).toNat = (readV s x).toNat)

/-! ## Display -/

/-- R150: `00E0` zeroes every pixel, changes nothing else but `PC`, and reports `FrameDirty`. -/
def Obligations.ClearZeroesEveryPixel : Prop :=
  ∀ s : State, decode 0x00E0#16 = .cls ∧
    (∃ t, exec .cls s = .next t ∧ (∀ x y, pixel t.fb x y = false) ∧ t.pc = s.pc + 2#16 ∧
      FrameExcept nothing nothing [.screen] s t) ∧
    (Running s → fetch s = some 0x00E0#16 → frameDirty s = true)

/-- R151, R153, R154: `Dxyn` flips exactly the pixels a lit sprite bit lands on, each coordinate wrapped on its own,
and `VF` says whether a lit bit met a lit pixel of the screen before. Wrap is decision D4, the bit order D5, `n = 0`
D32, the old `VF` as coordinate D6; R154 is the spec's derivation. -/
def Obligations.DrawFlipsExactlyTheLitPixels : Prop :=
  ∀ (x y : RegIdx) (n : Nibble) (s : State), decode (0xD#4 ++ x ++ y ++ n) = .drw x y n ∧
    (n.toNat = 0 ∨ s.i.toNat + n.toNat ≤ 4096 → ∃ t, exec (.drw x y n) s = .next t ∧
      (∀ (px : Fin 64) (py : Fin 32), pixel t.fb px py ≠ pixel s.fb px py ↔
        ∃ row < n.toNat, ∃ col < 8, (Memory.read s.mem (effAddr s row)).getLsbD (7 - col) = true ∧
          ((readV s x).toNat + col) % 64 = px.val ∧ ((readV s y).toNat + row) % 32 = py.val) ∧
      ((∃ row < n.toNat, ∃ col < 8, (Memory.read s.mem (effAddr s row)).getLsbD (7 - col) = true ∧
          pixel s.fb (wrapX ((readV s x).toNat + col)) (wrapY ((readV s y).toNat + row)) = true) →
        readV t VF = 1#8) ∧
      ((¬ ∃ row < n.toNat, ∃ col < 8, (Memory.read s.mem (effAddr s row)).getLsbD (7 - col) = true ∧
          pixel s.fb (wrapX ((readV s x).toNat + col)) (wrapY ((readV s y).toNat + row)) = true) →
        readV t VF = 0#8) ∧
      t.pc = s.pc + 2#16 ∧ FrameExcept (fun r => r = VF) nothing [.screen] s t)

/-- R151, R56: `Dxyn` whose sprite leaves memory raises `OutOfBounds`; no pixel, no register and not `PC` change, and
no `FrameDirty` is reported. The fault is decision D2, all or nothing D26. -/
def Obligations.DrawOutOfMemoryFaults : Prop :=
  ∀ (x y : RegIdx) (n : Nibble) (s : State), 0 < n.toNat → 4095 < s.i.toNat + n.toNat - 1 →
    exec (.drw x y n) s = .next { s with fault := some .outOfBounds } ∧
    (fetch s = some (0xD#4 ++ x ++ y ++ n) → frameDirty s = false)

/-- R156, which the spec derives: drawing the same sprite twice restores the framebuffer, and `VF` after the second
draw is 1 iff the first draw turned a pixel from 0 to 1 (conflict C8). -/
def Obligations.DrawTwiceRestoresTheScreen : Prop :=
  ∀ (x y : RegIdx) (n : Nibble) (s : State), x ≠ VF → y ≠ VF →
    (n.toNat = 0 ∨ s.i.toNat + n.toNat ≤ 4096) →
    ∃ t u, exec (.drw x y n) s = .next t ∧ exec (.drw x y n) t = .next u ∧
      (∀ px py, pixel u.fb px py = pixel s.fb px py) ∧
      (readV u VF = 1#8 ↔ ∃ px py, pixel s.fb px py = false ∧ pixel t.fb px py = true)

/-! ## Timers and keypad -/

/-- R160, R161: `Ex9E` and `ExA1` skip on a set and on a clear latch bit. The index by the low nibble is decision D9. -/
def Obligations.KeySkipsTestTheLatch : Prop :=
  ∀ (x : RegIdx) (s : State),
    decode (0xE#4 ++ x ++ 0x9E#8) = .skp x ∧ decode (0xE#4 ++ x ++ 0xA1#8) = .sknp x ∧
    (∃ t, exec (.skp x) s = .next t ∧ FrameExcept nothing nothing [] s t ∧
      ∀ k : Nibble, k.toNat = (readV s x).toNat % 16 →
        (readKey s k = true → t.pc = s.pc + 4#16) ∧ (readKey s k = false → t.pc = s.pc + 2#16)) ∧
    (∃ t, exec (.sknp x) s = .next t ∧ FrameExcept nothing nothing [] s t ∧
      ∀ k : Nibble, k.toNat = (readV s x).toNat % 16 →
        (readKey s k = false → t.pc = s.pc + 4#16) ∧ (readKey s k = true → t.pc = s.pc + 2#16))

/-- R162, R163, R165: `Fx07` reads the delay timer, `Fx15` and `Fx18` write the delay and the sound timer; the output
`sound_timer_active` follows `ST` at once. -/
def Obligations.TimerAccessMovesTheByte : Prop :=
  ∀ (x : RegIdx) (s : State),
    decode (0xF#4 ++ x ++ 0x07#8) = .ldVxDT x ∧ decode (0xF#4 ++ x ++ 0x15#8) = .ldDTVx x ∧
    decode (0xF#4 ++ x ++ 0x18#8) = .ldSTVx x ∧
    (∃ t, exec (.ldVxDT x) s = .next t ∧ readV t x = s.dt ∧ t.pc = s.pc + 2#16 ∧
      FrameExcept (fun r => r = x) nothing [] s t) ∧
    (∃ t, exec (.ldDTVx x) s = .next t ∧ t.dt = readV s x ∧ t.pc = s.pc + 2#16 ∧
      FrameExcept nothing nothing [.delay] s t) ∧
    (∃ t, exec (.ldSTVx x) s = .next t ∧ t.st = readV s x ∧
      (soundTimerActive t = true ↔ readV s x ≠ 0#8) ∧ t.pc = s.pc + 2#16 ∧
      FrameExcept nothing nothing [.sound] s t)

/-- R166: `Fx0A` sets `WAIT` and `WAIT_X` and leaves `PC` where it is, whatever keys are held; that a held key does not
count is decision D16, the latch `WAIT_X` decision D15. -/
def Obligations.KeyWaitBeginsWithoutAdvancing : Prop :=
  ∀ (x : RegIdx) (s : State), decode (0xF#4 ++ x ++ 0x0A#8) = .ldVxK x ∧
    (∃ t, exec (.ldVxK x) s = .next t ∧ t.wait = true ∧ t.waitX = x ∧ t.pc = s.pc ∧
      FrameExcept nothing nothing [.waiting] s t) ∧
    (fetch s = some (0xF#4 ++ x ++ 0x0A#8) → frameDirty s = false)

/-- R167, R176: a `key_down` that is a transition while the core waits writes `V[WAIT_X]`, ends the wait and moves `PC`
past the `Fx0A`; any other `key_down` only sets its latch bit. Decisions D15 (one event) and D14 (every state). -/
def Obligations.KeyDownResolvesThePendingWait : Prop :=
  ∀ (k : Nibble) (s : State),
    (s.wait = true ∧ readKey s k = false → ∃ t, handle (.keyDown k) s = .next t ∧
      (readV t s.waitX).toNat = k.toNat ∧ t.wait = false ∧ t.waitX = s.waitX ∧ t.pc = s.pc + 2#16 ∧
      readKey t k = true ∧ (∀ q, q ≠ k → readKey t q = readKey s q) ∧
      FrameExcept (fun r => r = s.waitX) nothing [.keypad, .waiting] s t) ∧
    (¬ (s.wait = true ∧ readKey s k = false) → ∃ t, handle (.keyDown k) s = .next t ∧ t.pc = s.pc ∧
      readKey t k = true ∧ (∀ q, q ≠ k → readKey t q = readKey s q) ∧
      FrameExcept nothing nothing [.keypad] s t)

/-- R177: `key_up` clears its latch bit and changes nothing else, in any state; it never resolves a key-wait. -/
def Obligations.KeyUpOnlyClearsItsBit : Prop :=
  ∀ (k : Nibble) (s : State), ∃ t, handle (.keyUp k) s = .next t ∧ t.pc = s.pc ∧ readKey t k = false ∧
    (∀ q, q ≠ k → readKey t q = readKey s q) ∧ FrameExcept nothing nothing [.keypad] s t

/-- R164, R168: after `n` `tick_timers` events a timer that held `d` holds `max(d - n, 0)`, in every state, and nothing
else has changed. R168 is the spec's derivation; that ticks act in every state is decision D14. -/
def Obligations.TicksCountDownAndStayAtZero : Prop :=
  ∀ (n : Nat) (s : State), ∃ t, runEvents (List.replicate n .tickTimers) s = .next t ∧
    t.dt.toNat = s.dt.toNat - n ∧ t.st.toNat = s.st.toNat - n ∧ t.pc = s.pc ∧
    FrameExcept nothing nothing [.delay, .sound] s t

/-! ## Load and reset -/

/-- R174: `load` writes its bytes from `0x200` on and nothing else, or, when they are more than 3584, is refused and
changes nothing. That it is legal in every state and clears nothing is decision D28. -/
def Obligations.LoadWritesTheRomOrNothing : Prop :=
  ∀ (bytes : List Byte) (s : State),
    (bytes.length ≤ 3584 → output (.load bytes) s = .loaded .ok ∧ ∃ t, handle (.load bytes) s = .next t ∧
      (∀ k (h : k < bytes.length), Memory.read t.mem (0x200 + k) = bytes[k]) ∧ t.pc = s.pc ∧
      FrameExcept nothing (bytesAt 0x200 bytes.length) [] s t) ∧
    (3584 < bytes.length → output (.load bytes) s = .loaded .romTooLarge ∧ handle (.load bytes) s = .next s)

/-- R220: what the `reset` event leaves, from any state. The values of `I`, `STACK`, `KEY`, `WAIT`, `WAIT_X`, `FAULT` and
the erased ROM are decision D17; the font bytes are the parameter of D22 (log entry 1), named and not spelt out here. -/
def Obligations.ResetRestoresTheInitialState : Prop :=
  ∀ s : State, ∃ t, handle .reset s = .next t ∧
    (∀ a < 80, Memory.read t.mem a = Config.font.getD a 0) ∧ (∀ a, 80 ≤ a → Memory.read t.mem a = 0#8) ∧
    (∀ r, readV t r = 0#8) ∧ t.i = 0#16 ∧ t.pc = 0x200#16 ∧ t.sp.val = 0 ∧
    (∀ k (h : k < 16), t.stack[k] = 0#16) ∧ t.dt = 0#8 ∧ t.st = 0#8 ∧ (∀ k, readKey t k = false) ∧
    (∀ x y, pixel t.fb x y = false) ∧ t.wait = false ∧ t.waitX = 0#4 ∧ t.fault = none

/-! ## The step and the machine as a whole -/

/-- R171: the step of a running core whose `PC` can be fetched at is `exec` of the instruction the two bytes at `PC`
decode to; nothing is added around it. -/
def Obligations.StepRunsTheDecodedInstruction : Prop :=
  ∀ (s : State) (i : Instr), Running s → s.pc.toNat ≤ 4094 → i.wf = true →
    decode (Memory.read s.mem s.pc.toNat ++ Memory.read s.mem (s.pc.toNat + 1)) = i → step s = exec i s

/-- R171 whole: the two tests at the top, the fetch and its fault, the one instruction with its random input, and the
output `FrameDirty`; a fault leaves all but `FAULT` as it was. -/
def Obligations.StepCycleFollowsItsRule : Prop :=
  ∀ (rnd : Byte) (s : State),
    (s.fault ≠ none → stepWith rnd s = .next s ∧ frameDirty s = false) ∧
    (s.fault = none → s.wait = true → stepWith rnd s = .next s ∧ frameDirty s = false) ∧
    (Running s → 4094 < s.pc.toNat →
      stepWith rnd s = .next { s with fault := some .outOfBounds } ∧ frameDirty s = false) ∧
    (Running s → s.pc.toNat ≤ 4094 → stepWith rnd s =
      execWith rnd (decode (Memory.read s.mem s.pc.toNat ++ Memory.read s.mem (s.pc.toNat + 1))) s) ∧
    (Running s → ∀ t, stepWith rnd s = .next t →
      (t.fault ≠ none → t = { s with fault := t.fault } ∧ frameDirty s = false) ∧
      (t.fault = none → (frameDirty s = true ↔
        ∃ w, fetch s = some w ∧ (decode w = .cls ∨ ∃ x y n, decode w = .drw x y n))))

/-- R193: faults are precise. An instruction that raises a fault changes nothing but `FAULT` (decisions D13, D26). -/
def Obligations.FaultsArePrecise : Prop :=
  ∀ (i : Instr) (s t : State), s.fault = none → exec i s = .next t → t.fault ≠ none →
    t = { s with fault := t.fault }

/-- R190 to R192: which instruction raises which fault, and when exactly. The out-of-range policy is decision D2, the
latch decision D13. -/
def Obligations.EachFaultHasItsCause : Prop :=
  ∀ (i : Instr) (s t : State), s.fault = none → exec i s = .next t →
    (t.fault = some .stackOverflow ↔ (∃ nnn, i = .call nnn) ∧ s.sp.val = 16) ∧
    (t.fault = some .stackUnderflow ↔ i = .ret ∧ s.sp.val = 0) ∧
    (t.fault = some .outOfBounds ↔
      (∃ x y n, i = .drw x y n ∧ 0 < n.toNat ∧ 4095 < s.i.toNat + n.toNat - 1) ∨
      (∃ x, i = .ldB x ∧ 4095 < s.i.toNat + 2) ∨
      (∃ x, (i = .ldMemVx x ∨ i = .ldVxMem x) ∧ 4095 < s.i.toNat + x.toNat))

/-- R194, R195: a faulted core stays faulted, with the same cause and `PC`, under every event but `reset`; a `step`
changes nothing at all; `reset` clears the fault (decisions D13, D14). `WAIT = 0` is R43 item 3. -/
def Obligations.FaultIsTerminalUntilReset : Prop :=
  ∀ (e : Event) (s t : State), s.fault ≠ none → s.wait = false → handle e s = .next t →
    (e ≠ .reset → t.fault = s.fault ∧ t.pc = s.pc ∧ t.wait = false) ∧
    (∀ rnd, e = .step rnd → t = s) ∧ (e = .reset → t.fault = none)

/-- R208, R39: what ends a key-wait is a `key_down` that is an unset-to-set transition, or `reset`; no other event does
(decisions D15, D16). -/
def Obligations.OnlyAFreshKeyOrResetEndsTheWait : Prop :=
  ∀ (e : Event) (s t : State), s.wait = true → s.fault = none → handle e s = .next t →
    (t.wait = false ↔ e = .reset ∨ ∃ k, e = .keyDown k ∧ readKey s k = false)

/-- R12, R179: every sequence of events is accepted in every state. No event, and so no instruction, stops the model: the
spec's faults are latched, and nothing is refused. -/
def Obligations.EveryEventSequenceAnswersNext : Prop :=
  ∀ (es : List Event) (s : State), ∃ t, runEvents es s = .next t

/-- R21, R22, R26: an instruction changes no register but its destination and, for the six flag writers, `VF`. -/
def Obligations.RegistersChangeOnlyAsNamed : Prop :=
  ∀ (i : Instr) (s t : State) (r : RegIdx), exec i s = .next t → mayWrite i r = false →
    readV t r = readV s r

/-- R42: of all instructions only `Fx33` and `Fx55` write memory, only inside their range at `I`, and only below 4096. -/
def Obligations.OnlyBcdAndDumpWriteMemory : Prop :=
  ∀ (i : Instr) (s t : State) (a : Nat), exec i s = .next t →
    Memory.read t.mem a ≠ Memory.read s.mem a →
      a ≤ 4095 ∧ ((∃ x, i = .ldB x ∧ bytesAt (effAddr s 0) 3 a) ∨
        (∃ x, i = .ldMemVx x ∧ bytesAt (effAddr s 0) (x.toNat + 1) a))

/-- R172: `FrameDirty` "is never false when a pixel changed" (its exact meaning is decision D18), and memory, keypad and
timers stay as they are in a step that reports it. -/
def Obligations.ScreenChangesAreReported : Prop :=
  ∀ (rnd : Byte) (s t : State), stepWith rnd s = .next t →
    (frameDirty s = false → ∀ x y, pixel t.fb x y = pixel s.fb x y) ∧
    (frameDirty s = true → (∀ a, Memory.read t.mem a = Memory.read s.mem a) ∧
      t.key = s.key ∧ t.dt = s.dt ∧ t.st = s.st)

/-- R32, R33, R34, R36, R39: who writes `I`, the stack, the timers, the keypad latch and the wait. In particular no
instruction decrements a timer or touches the keypad. -/
def Obligations.SpecialStateChangesOnlyAsNamed : Prop :=
  ∀ (i : Instr) (s t : State), exec i s = .next t →
    (t.i ≠ s.i → (∃ nnn, i = .ldI nnn) ∨ (∃ x, i = .addI x) ∨ ∃ x, i = .ldF x) ∧
    (t.sp ≠ s.sp → (∃ nnn, i = .call nnn) ∨ i = .ret) ∧
    (t.stack ≠ s.stack → ∃ nnn, i = .call nnn) ∧
    (t.dt ≠ s.dt → ∃ x, i = .ldDTVx x) ∧ (t.st ≠ s.st → ∃ x, i = .ldSTVx x) ∧ t.key = s.key ∧
    (t.wait ≠ s.wait ∨ t.waitX ≠ s.waitX → ∃ x, i = .ldVxK x) ∧
    (t.draws ≠ s.draws → ∃ x nn, i = .rnd x nn)

/-- R111, which the spec derives: a call to a return comes back to `A + 2` with `SP` as before; the dead cell holds `A`. -/
def Obligations.CallThenReturnComesBack : Prop :=
  ∀ (nnn : Addr12) (s : State), Running s → fetch s = some (0x2#4 ++ nnn) → ∀ h : s.sp.val < 16,
    nnn.toNat ≤ 4094 → Memory.read s.mem nnn.toNat = 0x00#8 → Memory.read s.mem (nnn.toNat + 1) = 0xEE#8 →
    ∃ t u, step s = .next t ∧ step t = .next u ∧ u.pc = s.pc + 2#16 ∧ u.sp = s.sp ∧
      u.stack[s.sp.val] = s.pc ∧ (∀ k (hk : k < 16), k ≠ s.sp.val → u.stack[k] = s.stack[k]) ∧
      FrameExcept nothing nothing [.stack] s u

/-- R65, which the spec derives: a store over the next word is seen by the very next fetch. -/
def Obligations.StoreIsSeenByTheNextFetch : Prop :=
  ∀ (x : RegIdx) (s : State), Running s → fetch s = some (0xF#4 ++ x ++ 0x55#8) → s.i = s.pc + 2#16 →
    1 ≤ x.toNat → s.i.toNat + x.toNat ≤ 4095 →
    ∃ t, step s = .next t ∧ t.pc = s.i ∧ fetch t = some (readV s 0x0#4 ++ readV s 0x1#4)

/-- R180: a core that stands on a jump to itself stays exactly where it is under any number of steps (the spec's
derivation; that this is how a run ends is decision D30). -/
def Obligations.JumpToItselfRests : Prop :=
  ∀ (nnn : Addr12) (s : State), Running s → fetch s = some (0x1#4 ++ nnn) → s.pc.toNat = nnn.toNat →
    ∀ k : Nat, Host.Core.run Sys2Proof.core k s = .next s

/-- R43 and the canonical form of memory hold at reset. The memory's canonical form is the model's choice, log entry 3. -/
def Obligations.InvariantHoldsAtReset : Prop := CoreInv State.reset

/-- Every step keeps R43 and the canonical form of memory (the spec's derivation; log entry 3). -/
def Obligations.StepKeepsTheInvariant : Prop :=
  ∀ s t : State, CoreInv s → step s = .next t → CoreInv t

/-- Every host event keeps R43 and the canonical form of memory, also in states that no run reaches. -/
def Obligations.HostEventsKeepTheInvariant : Prop :=
  ∀ (e : Event) (s t : State), (∀ rnd, e ≠ .step rnd) → CoreInv s → handle e s = .next t → CoreInv t

/-- R43: "After any sequence of events starting with `reset`" the invariant holds, for every order of the host's events
and every random input. -/
def Obligations.InvariantHoldsAfterAnyEvents : Prop :=
  ∀ (es : List Event) (t : State), runEvents es State.reset = .next t → CoreInv t

/-- R43 and the canonical form of memory are kept by every one of the six events, a `step` with any random input
included, from every state that meets them, reachable or not (the spec's derivation; log entry 3). -/
def Obligations.EveryEventKeepsTheInvariant : Prop :=
  ∀ (e : Event) (s t : State), CoreInv s → handle e s = .next t → CoreInv t
end

