-- ==== Sys2Proof/Laws/Decode.lean ====
section
/-! SUPPORT. The fields (30_encoding.md R82) of a word built in one of the formats (R81), and a word and its two
bytes (R58). -/

namespace Sys2Proof

/-- Two words are equal when their bits are, bit by bit, over the width. -/
theorem bits_eq {n : Nat} {a b : BitVec n} (h : ∀ i : Fin n, a.getLsbD i = b.getLsbD i) : a = b :=
  BitVec.eq_of_getLsbD_eq fun i hi => h ⟨i, hi⟩

variable (op x y n : Nibble) (nn : Byte) (nnn : Addr12)

theorem getLsbD_formNNN (i : Nat) :
    (formNNN op nnn).getLsbD i = if i < 12 then nnn.getLsbD i else op.getLsbD (i - 12) := by
  unfold formNNN
  exact BitVec.getLsbD_append (x := op) (y := nnn)

theorem getLsbD_formXNN (i : Nat) :
    (formXNN op x nn).getLsbD i =
      if i < 8 then nn.getLsbD i else if i - 8 < 4 then x.getLsbD (i - 8) else op.getLsbD (i - 8 - 4) := by
  unfold formXNN
  exact (BitVec.getLsbD_append (x := op ++ x) (y := nn)).trans (by rw [BitVec.getLsbD_append])

theorem formXYN_eq : formXYN op x y n = formXNN op x (y ++ n) := by
  apply BitVec.eq_of_toNat_eq
  simp only [formXYN, formXNN, BitVec.toNat_append, Nat.shiftLeft_or_distrib, ← Nat.shiftLeft_add, Nat.or_assoc]

theorem getLsbD_formXYN (i : Nat) :
    (formXYN op x y n).getLsbD i =
      if i < 8 then (if i < 4 then n.getLsbD i else y.getLsbD (i - 4))
      else if i - 8 < 4 then x.getLsbD (i - 8) else op.getLsbD (i - 8 - 4) := by
  rw [formXYN_eq, getLsbD_formXNN]
  congr 1
  exact BitVec.getLsbD_append (x := y) (y := n)

theorem getLsbD_wordOfBytes (hi lo : Byte) (i : Nat) :
    (wordOfBytes hi lo).getLsbD i = if i < 8 then lo.getLsbD i else hi.getLsbD (i - 8) := by
  unfold wordOfBytes
  exact BitVec.getLsbD_append (x := hi) (y := lo)

@[simp] theorem fieldOp_formNNN : fieldOp (formNNN op nnn) = op := by
  apply bits_eq
  intro i
  fin_cases i <;> simp only [fieldOp, BitVec.getLsbD_extractLsb', getLsbD_formNNN] <;> simp

@[simp] theorem fieldNNN_formNNN : fieldNNN (formNNN op nnn) = nnn := by
  apply bits_eq
  intro i
  fin_cases i <;> simp only [fieldNNN, BitVec.getLsbD_extractLsb', getLsbD_formNNN] <;> simp

@[simp] theorem fieldOp_formXNN : fieldOp (formXNN op x nn) = op := by
  apply bits_eq
  intro i
  fin_cases i <;> simp only [fieldOp, BitVec.getLsbD_extractLsb', getLsbD_formXNN] <;> simp

@[simp] theorem fieldX_formXNN : fieldX (formXNN op x nn) = x := by
  apply bits_eq
  intro i
  fin_cases i <;> simp only [fieldX, BitVec.getLsbD_extractLsb', getLsbD_formXNN] <;> simp

@[simp] theorem fieldNN_formXNN : fieldNN (formXNN op x nn) = nn := by
  apply bits_eq
  intro i
  fin_cases i <;> simp only [fieldNN, BitVec.getLsbD_extractLsb', getLsbD_formXNN] <;> simp

@[simp] theorem fieldOp_formXYN : fieldOp (formXYN op x y n) = op := by
  apply bits_eq
  intro i
  fin_cases i <;> simp only [fieldOp, BitVec.getLsbD_extractLsb', getLsbD_formXYN] <;> simp

@[simp] theorem fieldX_formXYN : fieldX (formXYN op x y n) = x := by
  apply bits_eq
  intro i
  fin_cases i <;> simp only [fieldX, BitVec.getLsbD_extractLsb', getLsbD_formXYN] <;> simp

@[simp] theorem fieldY_formXYN : fieldY (formXYN op x y n) = y := by
  apply bits_eq
  intro i
  fin_cases i <;> simp only [fieldY, BitVec.getLsbD_extractLsb', getLsbD_formXYN] <;> simp

@[simp] theorem fieldN_formXYN : fieldN (formXYN op x y n) = n := by
  apply bits_eq
  intro i
  fin_cases i <;> simp only [fieldN, BitVec.getLsbD_extractLsb', getLsbD_formXYN] <;> simp

/-- The low byte of a format `XYN` word is its two low fields. -/
theorem fieldNN_formXYN : fieldNN (formXYN op x y n) = y ++ n := by
  rw [formXYN_eq, fieldNN_formXNN]

/-- A word is the format `NNN` of its fields. -/
theorem formNNN_fields (w : Word) : formNNN (fieldOp w) (fieldNNN w) = w := by
  apply bits_eq
  intro i
  fin_cases i <;> simp only [getLsbD_formNNN, fieldOp, fieldNNN, BitVec.getLsbD_extractLsb'] <;> simp

/-- A word is the format `XNN` of its fields. -/
theorem formXNN_fields (w : Word) : formXNN (fieldOp w) (fieldX w) (fieldNN w) = w := by
  apply bits_eq
  intro i
  fin_cases i <;> simp only [getLsbD_formXNN, fieldOp, fieldX, fieldNN, BitVec.getLsbD_extractLsb'] <;> simp

/-- A word is the format `XYN` of its fields. -/
theorem formXYN_fields (w : Word) : formXYN (fieldOp w) (fieldX w) (fieldY w) (fieldN w) = w := by
  apply bits_eq
  intro i
  fin_cases i <;>
    simp only [getLsbD_formXYN, fieldOp, fieldX, fieldY, fieldN, BitVec.getLsbD_extractLsb'] <;> simp

/-- The bytes of a word in memory order give the word back (R58). -/
theorem wordOfBytes_bytesOfWord (w : Word) :
    wordOfBytes (w.extractLsb' 8 8) (w.extractLsb' 0 8) = w := by
  apply bits_eq
  intro i
  fin_cases i <;> simp only [getLsbD_wordOfBytes, BitVec.getLsbD_extractLsb'] <;> simp

/-- Decoding the two bytes of a word is decoding the word. -/
theorem decodeBytes_bytesOfWord (w : Word) (rest : List Byte) :
    decodeBytes (bytesOfWord w ++ rest) = .ok (decode w, rest) := by
  simp [bytesOfWord, decodeBytes, wordOfBytes_bytesOfWord]

/-- What the host's table word decodes to: every word decodes (R85). -/
theorem decodeTableWord_eq (nbits w : Nat) :
    decodeTableWord nbits w = some (decode (BitVec.ofNat 16 (w % 2 ^ nbits))) := by
  rw [decodeTableWord, ← List.append_nil (bytesOfWord _), decodeBytes_bytesOfWord]

/-- A byte list is rejected, by name, exactly when it is shorter than an instruction (R80, R85). -/
theorem decodeBytes_error_iff (bs : List Byte) :
    decodeBytes bs = .error .truncated ↔ bs.length < 2 := by
  match bs with
  | [] => simp [decodeBytes]
  | [_] => simp [decodeBytes]
  | _ :: _ :: _ => simp [decodeBytes]

/-- "The first 34 rows are pairwise disjoint" (R86): two rows that both match a word fix different values for
bits that both masks keep. -/
theorem opcodeRows_disjoint :
    opcodeRows.Pairwise (fun r q => r.pattern &&& (r.mask &&& q.mask) ≠ q.pattern &&& (r.mask &&& q.mask)) := by
  decide

end Sys2Proof
end

