-- ==== Sys2Proof/Laws/Memory.lean ====
section
/-! SUPPORT. What the memory operations do (20_memory.md R52, R53): a read after a write, in any memory, and that
each operation keeps the canonical form. -/

namespace Sys2Proof.Machine

/-- The range check of 20_memory.md R54 with its bound as a numeral. -/
theorem inMemory_iff (base : Word) (k : Nat) : inMemory base k ↔ k = 0 ∨ base.toNat + k ≤ 4096 := Iff.rfl

end Sys2Proof.Machine

namespace Sys2Proof.Machine.Memory

variable (m : Memory)

theorem lookup_dropCell (a q : Nat) :
    lookup (dropCell m a) q = if q = a then none else lookup m q := by
  induction m with
  | nil => simp [dropCell, lookup]
  | cons c rest ih =>
    obtain ⟨k, b⟩ := c
    by_cases hk : k = a
    · subst hk
      rw [dropCell, if_pos rfl, ih, lookup]
      by_cases hq : q = k
      · simp [hq]
      · simp [hq, Ne.symm hq]
    · rw [dropCell, if_neg hk, lookup, lookup, ih]
      by_cases hq : k = q
      · subst hq; simp [hk]
      · simp [hq]

theorem lookup_insertCell (a q : Nat) (b : Byte) (h : lookup m a = none) :
    lookup (insertCell m a b) q = if q = a then some b else lookup m q := by
  induction m with
  | nil => simp [insertCell, lookup, eq_comm]
  | cons c rest ih =>
    obtain ⟨k, d⟩ := c
    have hk : k ≠ a := by rintro rfl; simp [lookup] at h
    have hr : lookup rest a = none := by simpa [lookup, hk] using h
    by_cases hlt : a < k
    · simp [insertCell, hlt, lookup, eq_comm]
    · rw [insertCell, if_neg hlt, lookup, lookup, ih hr]
      by_cases hq : k = q
      · subst hq; simp [hk]
      · simp [hq]

/-- All a byte read after a byte write can be, in any memory. -/
theorem read_write (a q : Nat) (b : Byte) : read (write m a b) q = if q = a then b else read m q := by
  have hd : lookup (dropCell m a) a = none := by rw [lookup_dropCell, if_pos rfl]
  rw [read, write]
  split
  · rename_i hb
    rw [lookup_dropCell]
    by_cases hq : q = a
    · subst hq; simp [hb]
    · simp [hq, read]
  · rw [lookup_insertCell _ _ _ _ hd, lookup_dropCell]
    by_cases hq : q = a
    · simp [hq]
    · simp [hq, read]

theorem read_write_same (a : Nat) (b : Byte) : read (write m a b) a = b := by
  rw [read_write, if_pos rfl]

theorem read_write_other {a q : Nat} (h : q ≠ a) (b : Byte) : read (write m a b) q = read m q := by
  rw [read_write, if_neg h]

/-- All a byte read after a run of writes can be. -/
theorem read_writeBytes (bs : List Byte) (a q : Nat) :
    read (writeBytes m a bs) q =
      if h : a ≤ q ∧ q < a + bs.length then bs[q - a]'(by omega) else read m q := by
  induction bs generalizing m a with
  | nil =>
    rw [dif_neg (by simp only [List.length_nil]; omega)]
    rfl
  | cons b bs ih =>
    rw [writeBytes, ih]
    by_cases h1 : a + 1 ≤ q ∧ q < a + 1 + bs.length
    · rw [dif_pos h1, dif_pos (by simp only [List.length_cons]; omega)]
      have e : q - a = (q - (a + 1)) + 1 := by omega
      simp [e]
    · rw [dif_neg h1, read_write]
      by_cases hq : q = a
      · subst hq; simp
      · rw [if_neg hq, dif_neg (by simp only [List.length_cons]; omega)]

theorem read_writeBytes_outside {bs : List Byte} {a q : Nat} (h : q < a ∨ a + bs.length ≤ q) :
    read (writeBytes m a bs) q = read m q := by
  rw [read_writeBytes, dif_neg (by omega)]

/-! ## The canonical form -/

theorem mem_dropCell {p : Host.Cell} {a : Nat} (h : p ∈ dropCell m a) : p ∈ m ∧ p.1 ≠ a := by
  induction m with
  | nil => simp [dropCell] at h
  | cons c rest ih =>
    obtain ⟨k, b⟩ := c
    rw [dropCell] at h
    split at h
    · exact ⟨List.mem_cons_of_mem _ (ih h).1, (ih h).2⟩
    · rename_i hk
      rcases List.mem_cons.1 h with rfl | h
      · exact ⟨List.mem_cons_self, hk⟩
      · exact ⟨List.mem_cons_of_mem _ (ih h).1, (ih h).2⟩

theorem mem_insertCell {p : Host.Cell} {a : Nat} {b : Byte} (h : p ∈ insertCell m a b) :
    p = (a, b) ∨ p ∈ m := by
  induction m with
  | nil => simpa [insertCell] using h
  | cons c rest ih =>
    obtain ⟨k, d⟩ := c
    rw [insertCell] at h
    split at h
    · simpa [or_assoc] using h
    · rcases List.mem_cons.1 h with rfl | h
      · simp
      · rcases ih h with rfl | h <;> simp [*]

theorem wf_dropCell {m : Memory} (a : Nat) (h : wf m) : wf (dropCell m a) := by
  refine ⟨?_, fun p hp => h.2 p (mem_dropCell m hp).1⟩
  obtain ⟨hs, -⟩ := h
  induction m with
  | nil => simp [dropCell]
  | cons c rest ih =>
    obtain ⟨k, b⟩ := c
    rw [List.pairwise_cons] at hs
    rw [dropCell]
    split
    · exact ih hs.2
    · exact List.pairwise_cons.2 ⟨fun p hp => hs.1 p (mem_dropCell rest hp).1, ih hs.2⟩

theorem sorted_insertCell {m : Memory} {a : Nat} (b : Byte) (hs : m.Pairwise (fun p q => p.1 < q.1))
    (ha : ∀ p ∈ m, p.1 ≠ a) : (insertCell m a b).Pairwise (fun p q => p.1 < q.1) := by
  induction m with
  | nil => simp [insertCell]
  | cons c rest ih =>
    obtain ⟨k, d⟩ := c
    rw [List.pairwise_cons] at hs
    have hk : k ≠ a := ha (k, d) List.mem_cons_self
    rw [insertCell]
    split
    · rename_i hlt
      refine List.pairwise_cons.2 ⟨fun p hp => ?_, List.pairwise_cons.2 hs⟩
      rcases List.mem_cons.1 hp with rfl | hp
      · exact hlt
      · exact lt_trans hlt (hs.1 p hp)
    · rename_i hlt
      refine List.pairwise_cons.2 ⟨fun p hp => ?_, ih hs.2 fun p hp => ha p (List.mem_cons_of_mem _ hp)⟩
      rcases mem_insertCell rest hp with rfl | hp
      · exact lt_of_le_of_ne (not_lt.1 hlt) hk
      · exact hs.1 p hp

/-- A write inside memory keeps the canonical form. -/
theorem wf_write {m : Memory} {a : Nat} (b : Byte) (h : wf m) (ha : a < 4096) :
    wf (write m a b) := by
  rw [write]
  split
  · exact wf_dropCell a h
  · rename_i hb
    have hd := wf_dropCell a h
    refine ⟨sorted_insertCell b hd.1 fun p hp => (mem_dropCell m hp).2, fun p hp => ?_⟩
    rcases mem_insertCell _ hp with rfl | hp
    · exact ⟨ha, hb⟩
    · exact hd.2 p hp

/-- A run of writes inside memory keeps the canonical form. -/
theorem wf_writeBytes {m : Memory} {a : Nat} (bs : List Byte) (h : wf m)
    (ha : bs = [] ∨ a + bs.length ≤ 4096) : wf (writeBytes m a bs) := by
  induction bs generalizing m a with
  | nil => exact h
  | cons b bs ih =>
    have hlen : a + (bs.length + 1) ≤ 4096 := by simpa using ha
    refine ih (wf_write b h (show a < 4096 by omega)) (Or.inr (show a + 1 + bs.length ≤ 4096 by omega))

end Sys2Proof.Machine.Memory
end

