-- ==== Sys2Proof/Laws/State.lean ====
section
/-! SUPPORT. One lemma per field per state update, true by definition, so that no later proof unfolds a record
update; and the same for the register, key and pixel accessors. -/

namespace Sys2Proof.Machine

variable (s : State)


/-! ### writeV -/

@[simp] theorem writeV_mem (x : RegIdx) (b : Byte) : (writeV s x b).mem = s.mem := rfl
@[simp] theorem writeV_v (x : RegIdx) (b : Byte) : (writeV s x b).v = s.v.set x.toNat b (nibble_lt x) := rfl
@[simp] theorem writeV_i (x : RegIdx) (b : Byte) : (writeV s x b).i = s.i := rfl
@[simp] theorem writeV_pc (x : RegIdx) (b : Byte) : (writeV s x b).pc = s.pc := rfl
@[simp] theorem writeV_stack (x : RegIdx) (b : Byte) : (writeV s x b).stack = s.stack := rfl
@[simp] theorem writeV_sp (x : RegIdx) (b : Byte) : (writeV s x b).sp = s.sp := rfl
@[simp] theorem writeV_dt (x : RegIdx) (b : Byte) : (writeV s x b).dt = s.dt := rfl
@[simp] theorem writeV_st (x : RegIdx) (b : Byte) : (writeV s x b).st = s.st := rfl
@[simp] theorem writeV_key (x : RegIdx) (b : Byte) : (writeV s x b).key = s.key := rfl
@[simp] theorem writeV_fb (x : RegIdx) (b : Byte) : (writeV s x b).fb = s.fb := rfl
@[simp] theorem writeV_wait (x : RegIdx) (b : Byte) : (writeV s x b).wait = s.wait := rfl
@[simp] theorem writeV_waitX (x : RegIdx) (b : Byte) : (writeV s x b).waitX = s.waitX := rfl
@[simp] theorem writeV_fault (x : RegIdx) (b : Byte) : (writeV s x b).fault = s.fault := rfl
@[simp] theorem writeV_draws (x : RegIdx) (b : Byte) : (writeV s x b).draws = s.draws := rfl
@[simp] theorem writeV_readKey (x : RegIdx) (b : Byte) (q : Nibble) : readKey (writeV s x b) q = readKey s q := rfl

/-! ### writeKey -/

@[simp] theorem writeKey_mem (k : Nibble) (b : Bool) : (writeKey s k b).mem = s.mem := rfl
@[simp] theorem writeKey_v (k : Nibble) (b : Bool) : (writeKey s k b).v = s.v := rfl
@[simp] theorem writeKey_i (k : Nibble) (b : Bool) : (writeKey s k b).i = s.i := rfl
@[simp] theorem writeKey_pc (k : Nibble) (b : Bool) : (writeKey s k b).pc = s.pc := rfl
@[simp] theorem writeKey_stack (k : Nibble) (b : Bool) : (writeKey s k b).stack = s.stack := rfl
@[simp] theorem writeKey_sp (k : Nibble) (b : Bool) : (writeKey s k b).sp = s.sp := rfl
@[simp] theorem writeKey_dt (k : Nibble) (b : Bool) : (writeKey s k b).dt = s.dt := rfl
@[simp] theorem writeKey_st (k : Nibble) (b : Bool) : (writeKey s k b).st = s.st := rfl
@[simp] theorem writeKey_key (k : Nibble) (b : Bool) : (writeKey s k b).key = s.key.set k.toNat b (nibble_lt k) := rfl
@[simp] theorem writeKey_fb (k : Nibble) (b : Bool) : (writeKey s k b).fb = s.fb := rfl
@[simp] theorem writeKey_wait (k : Nibble) (b : Bool) : (writeKey s k b).wait = s.wait := rfl
@[simp] theorem writeKey_waitX (k : Nibble) (b : Bool) : (writeKey s k b).waitX = s.waitX := rfl
@[simp] theorem writeKey_fault (k : Nibble) (b : Bool) : (writeKey s k b).fault = s.fault := rfl
@[simp] theorem writeKey_draws (k : Nibble) (b : Bool) : (writeKey s k b).draws = s.draws := rfl
@[simp] theorem writeKey_readV (k : Nibble) (b : Bool) (r : RegIdx) : readV (writeKey s k b) r = readV s r := rfl

/-! ### advance -/

@[simp] theorem advance_mem : (advance s).mem = s.mem := rfl
@[simp] theorem advance_v : (advance s).v = s.v := rfl
@[simp] theorem advance_i : (advance s).i = s.i := rfl
@[simp] theorem advance_pc : (advance s).pc = s.pc + 2#16 := rfl
@[simp] theorem advance_stack : (advance s).stack = s.stack := rfl
@[simp] theorem advance_sp : (advance s).sp = s.sp := rfl
@[simp] theorem advance_dt : (advance s).dt = s.dt := rfl
@[simp] theorem advance_st : (advance s).st = s.st := rfl
@[simp] theorem advance_key : (advance s).key = s.key := rfl
@[simp] theorem advance_fb : (advance s).fb = s.fb := rfl
@[simp] theorem advance_wait : (advance s).wait = s.wait := rfl
@[simp] theorem advance_waitX : (advance s).waitX = s.waitX := rfl
@[simp] theorem advance_fault : (advance s).fault = s.fault := rfl
@[simp] theorem advance_draws : (advance s).draws = s.draws := rfl
@[simp] theorem advance_readV (r : RegIdx) : readV (advance s) r = readV s r := rfl
@[simp] theorem advance_readKey (q : Nibble) : readKey (advance s) q = readKey s q := rfl

/-! ### skipIf -/

@[simp] theorem skipIf_mem (c : Bool) : (skipIf c s).mem = s.mem := rfl
@[simp] theorem skipIf_v (c : Bool) : (skipIf c s).v = s.v := rfl
@[simp] theorem skipIf_i (c : Bool) : (skipIf c s).i = s.i := rfl
@[simp] theorem skipIf_pc (c : Bool) : (skipIf c s).pc = s.pc + (if c then 4#16 else 2#16) := rfl
@[simp] theorem skipIf_stack (c : Bool) : (skipIf c s).stack = s.stack := rfl
@[simp] theorem skipIf_sp (c : Bool) : (skipIf c s).sp = s.sp := rfl
@[simp] theorem skipIf_dt (c : Bool) : (skipIf c s).dt = s.dt := rfl
@[simp] theorem skipIf_st (c : Bool) : (skipIf c s).st = s.st := rfl
@[simp] theorem skipIf_key (c : Bool) : (skipIf c s).key = s.key := rfl
@[simp] theorem skipIf_fb (c : Bool) : (skipIf c s).fb = s.fb := rfl
@[simp] theorem skipIf_wait (c : Bool) : (skipIf c s).wait = s.wait := rfl
@[simp] theorem skipIf_waitX (c : Bool) : (skipIf c s).waitX = s.waitX := rfl
@[simp] theorem skipIf_fault (c : Bool) : (skipIf c s).fault = s.fault := rfl
@[simp] theorem skipIf_draws (c : Bool) : (skipIf c s).draws = s.draws := rfl
@[simp] theorem skipIf_readV (c : Bool) (r : RegIdx) : readV (skipIf c s) r = readV s r := rfl
@[simp] theorem skipIf_readKey (c : Bool) (q : Nibble) : readKey (skipIf c s) q = readKey s q := rfl

/-! ### jumpTo -/

@[simp] theorem jumpTo_mem (w : Word) : (jumpTo w s).mem = s.mem := rfl
@[simp] theorem jumpTo_v (w : Word) : (jumpTo w s).v = s.v := rfl
@[simp] theorem jumpTo_i (w : Word) : (jumpTo w s).i = s.i := rfl
@[simp] theorem jumpTo_pc (w : Word) : (jumpTo w s).pc = w := rfl
@[simp] theorem jumpTo_stack (w : Word) : (jumpTo w s).stack = s.stack := rfl
@[simp] theorem jumpTo_sp (w : Word) : (jumpTo w s).sp = s.sp := rfl
@[simp] theorem jumpTo_dt (w : Word) : (jumpTo w s).dt = s.dt := rfl
@[simp] theorem jumpTo_st (w : Word) : (jumpTo w s).st = s.st := rfl
@[simp] theorem jumpTo_key (w : Word) : (jumpTo w s).key = s.key := rfl
@[simp] theorem jumpTo_fb (w : Word) : (jumpTo w s).fb = s.fb := rfl
@[simp] theorem jumpTo_wait (w : Word) : (jumpTo w s).wait = s.wait := rfl
@[simp] theorem jumpTo_waitX (w : Word) : (jumpTo w s).waitX = s.waitX := rfl
@[simp] theorem jumpTo_fault (w : Word) : (jumpTo w s).fault = s.fault := rfl
@[simp] theorem jumpTo_draws (w : Word) : (jumpTo w s).draws = s.draws := rfl
@[simp] theorem jumpTo_readV (w : Word) (r : RegIdx) : readV (jumpTo w s) r = readV s r := rfl
@[simp] theorem jumpTo_readKey (w : Word) (q : Nibble) : readKey (jumpTo w s) q = readKey s q := rfl

/-! ### setI -/

@[simp] theorem setI_mem (w : Word) : (setI w s).mem = s.mem := rfl
@[simp] theorem setI_v (w : Word) : (setI w s).v = s.v := rfl
@[simp] theorem setI_i (w : Word) : (setI w s).i = w := rfl
@[simp] theorem setI_pc (w : Word) : (setI w s).pc = s.pc := rfl
@[simp] theorem setI_stack (w : Word) : (setI w s).stack = s.stack := rfl
@[simp] theorem setI_sp (w : Word) : (setI w s).sp = s.sp := rfl
@[simp] theorem setI_dt (w : Word) : (setI w s).dt = s.dt := rfl
@[simp] theorem setI_st (w : Word) : (setI w s).st = s.st := rfl
@[simp] theorem setI_key (w : Word) : (setI w s).key = s.key := rfl
@[simp] theorem setI_fb (w : Word) : (setI w s).fb = s.fb := rfl
@[simp] theorem setI_wait (w : Word) : (setI w s).wait = s.wait := rfl
@[simp] theorem setI_waitX (w : Word) : (setI w s).waitX = s.waitX := rfl
@[simp] theorem setI_fault (w : Word) : (setI w s).fault = s.fault := rfl
@[simp] theorem setI_draws (w : Word) : (setI w s).draws = s.draws := rfl
@[simp] theorem setI_readV (w : Word) (r : RegIdx) : readV (setI w s) r = readV s r := rfl
@[simp] theorem setI_readKey (w : Word) (q : Nibble) : readKey (setI w s) q = readKey s q := rfl

/-! ### setDT -/

@[simp] theorem setDT_mem (b : Byte) : (setDT b s).mem = s.mem := rfl
@[simp] theorem setDT_v (b : Byte) : (setDT b s).v = s.v := rfl
@[simp] theorem setDT_i (b : Byte) : (setDT b s).i = s.i := rfl
@[simp] theorem setDT_pc (b : Byte) : (setDT b s).pc = s.pc := rfl
@[simp] theorem setDT_stack (b : Byte) : (setDT b s).stack = s.stack := rfl
@[simp] theorem setDT_sp (b : Byte) : (setDT b s).sp = s.sp := rfl
@[simp] theorem setDT_dt (b : Byte) : (setDT b s).dt = b := rfl
@[simp] theorem setDT_st (b : Byte) : (setDT b s).st = s.st := rfl
@[simp] theorem setDT_key (b : Byte) : (setDT b s).key = s.key := rfl
@[simp] theorem setDT_fb (b : Byte) : (setDT b s).fb = s.fb := rfl
@[simp] theorem setDT_wait (b : Byte) : (setDT b s).wait = s.wait := rfl
@[simp] theorem setDT_waitX (b : Byte) : (setDT b s).waitX = s.waitX := rfl
@[simp] theorem setDT_fault (b : Byte) : (setDT b s).fault = s.fault := rfl
@[simp] theorem setDT_draws (b : Byte) : (setDT b s).draws = s.draws := rfl
@[simp] theorem setDT_readV (b : Byte) (r : RegIdx) : readV (setDT b s) r = readV s r := rfl
@[simp] theorem setDT_readKey (b : Byte) (q : Nibble) : readKey (setDT b s) q = readKey s q := rfl

/-! ### setST -/

@[simp] theorem setST_mem (b : Byte) : (setST b s).mem = s.mem := rfl
@[simp] theorem setST_v (b : Byte) : (setST b s).v = s.v := rfl
@[simp] theorem setST_i (b : Byte) : (setST b s).i = s.i := rfl
@[simp] theorem setST_pc (b : Byte) : (setST b s).pc = s.pc := rfl
@[simp] theorem setST_stack (b : Byte) : (setST b s).stack = s.stack := rfl
@[simp] theorem setST_sp (b : Byte) : (setST b s).sp = s.sp := rfl
@[simp] theorem setST_dt (b : Byte) : (setST b s).dt = s.dt := rfl
@[simp] theorem setST_st (b : Byte) : (setST b s).st = b := rfl
@[simp] theorem setST_key (b : Byte) : (setST b s).key = s.key := rfl
@[simp] theorem setST_fb (b : Byte) : (setST b s).fb = s.fb := rfl
@[simp] theorem setST_wait (b : Byte) : (setST b s).wait = s.wait := rfl
@[simp] theorem setST_waitX (b : Byte) : (setST b s).waitX = s.waitX := rfl
@[simp] theorem setST_fault (b : Byte) : (setST b s).fault = s.fault := rfl
@[simp] theorem setST_draws (b : Byte) : (setST b s).draws = s.draws := rfl
@[simp] theorem setST_readV (b : Byte) (r : RegIdx) : readV (setST b s) r = readV s r := rfl
@[simp] theorem setST_readKey (b : Byte) (q : Nibble) : readKey (setST b s) q = readKey s q := rfl

/-! ### setScreen -/

@[simp] theorem setScreen_mem (fb : Screen) : (setScreen fb s).mem = s.mem := rfl
@[simp] theorem setScreen_v (fb : Screen) : (setScreen fb s).v = s.v := rfl
@[simp] theorem setScreen_i (fb : Screen) : (setScreen fb s).i = s.i := rfl
@[simp] theorem setScreen_pc (fb : Screen) : (setScreen fb s).pc = s.pc := rfl
@[simp] theorem setScreen_stack (fb : Screen) : (setScreen fb s).stack = s.stack := rfl
@[simp] theorem setScreen_sp (fb : Screen) : (setScreen fb s).sp = s.sp := rfl
@[simp] theorem setScreen_dt (fb : Screen) : (setScreen fb s).dt = s.dt := rfl
@[simp] theorem setScreen_st (fb : Screen) : (setScreen fb s).st = s.st := rfl
@[simp] theorem setScreen_key (fb : Screen) : (setScreen fb s).key = s.key := rfl
@[simp] theorem setScreen_fb (fb : Screen) : (setScreen fb s).fb = fb := rfl
@[simp] theorem setScreen_wait (fb : Screen) : (setScreen fb s).wait = s.wait := rfl
@[simp] theorem setScreen_waitX (fb : Screen) : (setScreen fb s).waitX = s.waitX := rfl
@[simp] theorem setScreen_fault (fb : Screen) : (setScreen fb s).fault = s.fault := rfl
@[simp] theorem setScreen_draws (fb : Screen) : (setScreen fb s).draws = s.draws := rfl
@[simp] theorem setScreen_readV (fb : Screen) (r : RegIdx) : readV (setScreen fb s) r = readV s r := rfl
@[simp] theorem setScreen_readKey (fb : Screen) (q : Nibble) : readKey (setScreen fb s) q = readKey s q := rfl

/-! ### awaitKey -/

@[simp] theorem awaitKey_mem (x : RegIdx) : (awaitKey x s).mem = s.mem := rfl
@[simp] theorem awaitKey_v (x : RegIdx) : (awaitKey x s).v = s.v := rfl
@[simp] theorem awaitKey_i (x : RegIdx) : (awaitKey x s).i = s.i := rfl
@[simp] theorem awaitKey_pc (x : RegIdx) : (awaitKey x s).pc = s.pc := rfl
@[simp] theorem awaitKey_stack (x : RegIdx) : (awaitKey x s).stack = s.stack := rfl
@[simp] theorem awaitKey_sp (x : RegIdx) : (awaitKey x s).sp = s.sp := rfl
@[simp] theorem awaitKey_dt (x : RegIdx) : (awaitKey x s).dt = s.dt := rfl
@[simp] theorem awaitKey_st (x : RegIdx) : (awaitKey x s).st = s.st := rfl
@[simp] theorem awaitKey_key (x : RegIdx) : (awaitKey x s).key = s.key := rfl
@[simp] theorem awaitKey_fb (x : RegIdx) : (awaitKey x s).fb = s.fb := rfl
@[simp] theorem awaitKey_wait (x : RegIdx) : (awaitKey x s).wait = true := rfl
@[simp] theorem awaitKey_waitX (x : RegIdx) : (awaitKey x s).waitX = x := rfl
@[simp] theorem awaitKey_fault (x : RegIdx) : (awaitKey x s).fault = s.fault := rfl
@[simp] theorem awaitKey_draws (x : RegIdx) : (awaitKey x s).draws = s.draws := rfl
@[simp] theorem awaitKey_readV (x : RegIdx) (r : RegIdx) : readV (awaitKey x s) r = readV s r := rfl
@[simp] theorem awaitKey_readKey (x : RegIdx) (q : Nibble) : readKey (awaitKey x s) q = readKey s q := rfl

/-! ### countDraw -/

@[simp] theorem countDraw_mem : (countDraw s).mem = s.mem := rfl
@[simp] theorem countDraw_v : (countDraw s).v = s.v := rfl
@[simp] theorem countDraw_i : (countDraw s).i = s.i := rfl
@[simp] theorem countDraw_pc : (countDraw s).pc = s.pc := rfl
@[simp] theorem countDraw_stack : (countDraw s).stack = s.stack := rfl
@[simp] theorem countDraw_sp : (countDraw s).sp = s.sp := rfl
@[simp] theorem countDraw_dt : (countDraw s).dt = s.dt := rfl
@[simp] theorem countDraw_st : (countDraw s).st = s.st := rfl
@[simp] theorem countDraw_key : (countDraw s).key = s.key := rfl
@[simp] theorem countDraw_fb : (countDraw s).fb = s.fb := rfl
@[simp] theorem countDraw_wait : (countDraw s).wait = s.wait := rfl
@[simp] theorem countDraw_waitX : (countDraw s).waitX = s.waitX := rfl
@[simp] theorem countDraw_fault : (countDraw s).fault = s.fault := rfl
@[simp] theorem countDraw_draws : (countDraw s).draws = s.draws + 1 := rfl
@[simp] theorem countDraw_readV (r : RegIdx) : readV (countDraw s) r = readV s r := rfl
@[simp] theorem countDraw_readKey (q : Nibble) : readKey (countDraw s) q = readKey s q := rfl

/-! ### storeBytes -/

@[simp] theorem storeBytes_mem (a : Nat) (bs : List Byte) : (storeBytes a bs s).mem = Memory.writeBytes s.mem a bs := rfl
@[simp] theorem storeBytes_v (a : Nat) (bs : List Byte) : (storeBytes a bs s).v = s.v := rfl
@[simp] theorem storeBytes_i (a : Nat) (bs : List Byte) : (storeBytes a bs s).i = s.i := rfl
@[simp] theorem storeBytes_pc (a : Nat) (bs : List Byte) : (storeBytes a bs s).pc = s.pc := rfl
@[simp] theorem storeBytes_stack (a : Nat) (bs : List Byte) : (storeBytes a bs s).stack = s.stack := rfl
@[simp] theorem storeBytes_sp (a : Nat) (bs : List Byte) : (storeBytes a bs s).sp = s.sp := rfl
@[simp] theorem storeBytes_dt (a : Nat) (bs : List Byte) : (storeBytes a bs s).dt = s.dt := rfl
@[simp] theorem storeBytes_st (a : Nat) (bs : List Byte) : (storeBytes a bs s).st = s.st := rfl
@[simp] theorem storeBytes_key (a : Nat) (bs : List Byte) : (storeBytes a bs s).key = s.key := rfl
@[simp] theorem storeBytes_fb (a : Nat) (bs : List Byte) : (storeBytes a bs s).fb = s.fb := rfl
@[simp] theorem storeBytes_wait (a : Nat) (bs : List Byte) : (storeBytes a bs s).wait = s.wait := rfl
@[simp] theorem storeBytes_waitX (a : Nat) (bs : List Byte) : (storeBytes a bs s).waitX = s.waitX := rfl
@[simp] theorem storeBytes_fault (a : Nat) (bs : List Byte) : (storeBytes a bs s).fault = s.fault := rfl
@[simp] theorem storeBytes_draws (a : Nat) (bs : List Byte) : (storeBytes a bs s).draws = s.draws := rfl
@[simp] theorem storeBytes_readV (a : Nat) (bs : List Byte) (r : RegIdx) : readV (storeBytes a bs s) r = readV s r := rfl
@[simp] theorem storeBytes_readKey (a : Nat) (bs : List Byte) (q : Nibble) : readKey (storeBytes a bs s) q = readKey s q := rfl

/-! ### writeResultAndFlag -/

@[simp] theorem writeResultAndFlag_mem (x : RegIdx) (b : Byte) (f : Bool) : (writeResultAndFlag s x b f).mem = s.mem := rfl
@[simp] theorem writeResultAndFlag_v (x : RegIdx) (b : Byte) (f : Bool) : (writeResultAndFlag s x b f).v = (s.v.set x.toNat b (nibble_lt x)).set 15 (flagByte f) := rfl
@[simp] theorem writeResultAndFlag_i (x : RegIdx) (b : Byte) (f : Bool) : (writeResultAndFlag s x b f).i = s.i := rfl
@[simp] theorem writeResultAndFlag_pc (x : RegIdx) (b : Byte) (f : Bool) : (writeResultAndFlag s x b f).pc = s.pc := rfl
@[simp] theorem writeResultAndFlag_stack (x : RegIdx) (b : Byte) (f : Bool) : (writeResultAndFlag s x b f).stack = s.stack := rfl
@[simp] theorem writeResultAndFlag_sp (x : RegIdx) (b : Byte) (f : Bool) : (writeResultAndFlag s x b f).sp = s.sp := rfl
@[simp] theorem writeResultAndFlag_dt (x : RegIdx) (b : Byte) (f : Bool) : (writeResultAndFlag s x b f).dt = s.dt := rfl
@[simp] theorem writeResultAndFlag_st (x : RegIdx) (b : Byte) (f : Bool) : (writeResultAndFlag s x b f).st = s.st := rfl
@[simp] theorem writeResultAndFlag_key (x : RegIdx) (b : Byte) (f : Bool) : (writeResultAndFlag s x b f).key = s.key := rfl
@[simp] theorem writeResultAndFlag_fb (x : RegIdx) (b : Byte) (f : Bool) : (writeResultAndFlag s x b f).fb = s.fb := rfl
@[simp] theorem writeResultAndFlag_wait (x : RegIdx) (b : Byte) (f : Bool) : (writeResultAndFlag s x b f).wait = s.wait := rfl
@[simp] theorem writeResultAndFlag_waitX (x : RegIdx) (b : Byte) (f : Bool) : (writeResultAndFlag s x b f).waitX = s.waitX := rfl
@[simp] theorem writeResultAndFlag_fault (x : RegIdx) (b : Byte) (f : Bool) : (writeResultAndFlag s x b f).fault = s.fault := rfl
@[simp] theorem writeResultAndFlag_draws (x : RegIdx) (b : Byte) (f : Bool) : (writeResultAndFlag s x b f).draws = s.draws := rfl
@[simp] theorem writeResultAndFlag_readKey (x : RegIdx) (b : Byte) (f : Bool) (q : Nibble) : readKey (writeResultAndFlag s x b f) q = readKey s q := rfl

/-! ### tickTimers -/

@[simp] theorem tickTimers_mem : (tickTimers s).mem = s.mem := rfl
@[simp] theorem tickTimers_v : (tickTimers s).v = s.v := rfl
@[simp] theorem tickTimers_i : (tickTimers s).i = s.i := rfl
@[simp] theorem tickTimers_pc : (tickTimers s).pc = s.pc := rfl
@[simp] theorem tickTimers_stack : (tickTimers s).stack = s.stack := rfl
@[simp] theorem tickTimers_sp : (tickTimers s).sp = s.sp := rfl
@[simp] theorem tickTimers_dt : (tickTimers s).dt = countDown s.dt := rfl
@[simp] theorem tickTimers_st : (tickTimers s).st = countDown s.st := rfl
@[simp] theorem tickTimers_key : (tickTimers s).key = s.key := rfl
@[simp] theorem tickTimers_fb : (tickTimers s).fb = s.fb := rfl
@[simp] theorem tickTimers_wait : (tickTimers s).wait = s.wait := rfl
@[simp] theorem tickTimers_waitX : (tickTimers s).waitX = s.waitX := rfl
@[simp] theorem tickTimers_fault : (tickTimers s).fault = s.fault := rfl
@[simp] theorem tickTimers_draws : (tickTimers s).draws = s.draws := rfl
@[simp] theorem tickTimers_readV (r : RegIdx) : readV (tickTimers s) r = readV s r := rfl
@[simp] theorem tickTimers_readKey (q : Nibble) : readKey (tickTimers s) q = readKey s q := rfl

/-! ### Registers -/

theorem readV_writeV_same (x : RegIdx) (b : Byte) : readV (writeV s x b) x = b := by
  simp [readV]

theorem readV_writeV_other {x r : RegIdx} (h : r ≠ x) (b : Byte) :
    readV (writeV s x b) r = readV s r := by
  have hne : x.toNat ≠ r.toNat := fun e => h (BitVec.eq_of_toNat_eq e.symm)
  simp [readV, Vector.getElem_set_ne, hne]

/-- All a register read after a register write can be. -/
theorem readV_writeV (x r : RegIdx) (b : Byte) :
    readV (writeV s x b) r = if r = x then b else readV s r := by
  split
  · subst r; exact readV_writeV_same s x b
  · exact readV_writeV_other s ‹_› b

/-! ### Keypad -/

theorem readKey_writeKey_same (k : Nibble) (b : Bool) : readKey (writeKey s k b) k = b := by
  simp [readKey]

theorem readKey_writeKey_other {k q : Nibble} (h : q ≠ k) (b : Bool) :
    readKey (writeKey s k b) q = readKey s q := by
  have hne : k.toNat ≠ q.toNat := fun e => h (BitVec.eq_of_toNat_eq e.symm)
  simp [readKey, Vector.getElem_set_ne, hne]

/-- All a key read after a latch write can be. -/
theorem readKey_writeKey (k q : Nibble) (b : Bool) :
    readKey (writeKey s k b) q = if q = k then b else readKey s q := by
  split
  · subst q; exact readKey_writeKey_same s k b
  · exact readKey_writeKey_other s ‹_› b

end Sys2Proof.Machine
end

