-- ==== Sys2Proof/Laws/Ops.lean ====
section
/-! SUPPORT. For each shared operation of Machine/Flags.lean, Machine/Operands.lean and Machine/Ops.lean, one lemma
that says everything it can do. -/

namespace Sys2Proof.Machine

variable (s : State)

/-! ## Flag-writing results (10_state.md R27) -/

/-- Every register after the two writes: `VF` is the flag, then the destination is the result. -/
theorem readV_writeResultAndFlag (x r : RegIdx) (b : Byte) (f : Bool) :
    readV (writeResultAndFlag s x b f) r =
      if r = VF then flagByte f else if r = x then b else readV s r := by
  rw [writeResultAndFlag, readV_writeV, readV_writeV]

/-- The two writes change the registers only. -/
theorem writeResultAndFlag_eq (x : RegIdx) (b : Byte) (f : Bool) :
    writeResultAndFlag s x b f = { s with v := (writeResultAndFlag s x b f).v } := rfl

/-! ## Operand values -/

@[simp] theorem zextAddr_toNat (nnn : Addr12) : (zextAddr nnn).toNat = nnn.toNat := by
  have := nnn.isLt
  simp [zextAddr]
  omega

@[simp] theorem zextByte_toNat (b : Byte) : (zextByte b).toNat = b.toNat := by
  have := b.isLt
  simp [zextByte]
  omega

@[simp] theorem zextKey_toNat (k : Nibble) : (zextKey k).toNat = k.toNat := by
  have := k.isLt
  simp [zextKey]
  omega

@[simp] theorem lowNibble_toNat (b : Byte) : (lowNibble b).toNat = b.toNat % 16 := by
  simp [lowNibble]

/-- `5 * d` for the low nibble `d` (42_memory_index.md R142). -/
@[simp] theorem glyphAddr_toNat (b : Byte) : (glyphAddr b).toNat = 5 * (b.toNat % 16) := by
  revert b
  decide

@[simp] theorem flagByte_true : flagByte true = 1#8 := rfl

@[simp] theorem flagByte_false : flagByte false = 0#8 := rfl

/-- The sum of `Bnnn` never wraps (40_control_flow.md R104). -/
theorem jpV0_target_toNat (b : Byte) (nnn : Addr12) :
    (zextByte b + zextAddr nnn).toNat = b.toNat + nnn.toNat := by
  have h1 := b.isLt
  have h2 := nnn.isLt
  rw [BitVec.toNat_add, zextByte_toNat, zextAddr_toNat, Nat.mod_eq_of_lt (by omega)]

/-! ## Stack (10_state.md R31) -/

theorem push_eq_some {a : Word} {t : State} :
    push a s = some t ↔
      ∃ h : s.sp.val < 16,
        t = { s with stack := s.stack.set s.sp.val a h, sp := ⟨s.sp.val + 1, by omega⟩ } := by
  unfold push
  split
  · rename_i h
    exact ⟨fun e => ⟨h, (Option.some.inj e).symm⟩, fun ⟨_, e⟩ => by rw [e]⟩
  · rename_i h
    exact ⟨fun e => (nomatch e), fun ⟨h', _⟩ => absurd h' h⟩

theorem push_eq_none {a : Word} : push a s = none ↔ s.sp.val = 16 := by
  have := s.sp.isLt
  unfold push
  split <;> simp <;> omega

theorem pop_eq_some {a : Word} {t : State} :
    pop s = some (a, t) ↔
      ∃ h : 0 < s.sp.val,
        a = s.stack[s.sp.val - 1]'(by omega) ∧ t = { s with sp := ⟨s.sp.val - 1, by omega⟩ } := by
  unfold pop
  split
  · rename_i h
    constructor
    · intro e
      have e := Prod.mk.inj (Option.some.inj e)
      exact ⟨h, e.1.symm, e.2.symm⟩
    · rintro ⟨_, rfl, rfl⟩
      rfl
  · rename_i h
    exact ⟨fun e => (nomatch e), fun ⟨h', _⟩ => absurd h' h⟩

theorem pop_eq_none : pop s = none ↔ s.sp.val = 0 := by
  unfold pop
  split <;> simp <;> omega

/-! ## Register load (42_memory_index.md R145) -/

/-- A register load changes the registers only. -/
theorem loadRegs_eq (base k : Nat) : loadRegs base s k = { s with v := (loadRegs base s k).v } := by
  induction k with
  | zero => rfl
  | succ k ih =>
    rw [loadRegs, ih]
    rfl

@[simp] theorem loadRegs_mem (base k : Nat) : (loadRegs base s k).mem = s.mem := by rw [loadRegs_eq]
@[simp] theorem loadRegs_i (base k : Nat) : (loadRegs base s k).i = s.i := by rw [loadRegs_eq]
@[simp] theorem loadRegs_pc (base k : Nat) : (loadRegs base s k).pc = s.pc := by rw [loadRegs_eq]
@[simp] theorem loadRegs_stack (base k : Nat) : (loadRegs base s k).stack = s.stack := by rw [loadRegs_eq]
@[simp] theorem loadRegs_sp (base k : Nat) : (loadRegs base s k).sp = s.sp := by rw [loadRegs_eq]
@[simp] theorem loadRegs_dt (base k : Nat) : (loadRegs base s k).dt = s.dt := by rw [loadRegs_eq]
@[simp] theorem loadRegs_st (base k : Nat) : (loadRegs base s k).st = s.st := by rw [loadRegs_eq]
@[simp] theorem loadRegs_key (base k : Nat) : (loadRegs base s k).key = s.key := by rw [loadRegs_eq]
@[simp] theorem loadRegs_fb (base k : Nat) : (loadRegs base s k).fb = s.fb := by rw [loadRegs_eq]
@[simp] theorem loadRegs_wait (base k : Nat) : (loadRegs base s k).wait = s.wait := by rw [loadRegs_eq]
@[simp] theorem loadRegs_waitX (base k : Nat) : (loadRegs base s k).waitX = s.waitX := by rw [loadRegs_eq]
@[simp] theorem loadRegs_fault (base k : Nat) : (loadRegs base s k).fault = s.fault := by rw [loadRegs_eq]
@[simp] theorem loadRegs_draws (base k : Nat) : (loadRegs base s k).draws = s.draws := by rw [loadRegs_eq]

/-- Every register after a register load of `k` registers. -/
theorem readV_loadRegs (base : Nat) (r : RegIdx) {k : Nat} (hk : k ≤ 16) :
    readV (loadRegs base s k) r =
      if r.toNat < k then Memory.read s.mem (base + r.toNat) else readV s r := by
  induction k with
  | zero => rfl
  | succ k ih =>
    rw [loadRegs, readV_writeV, ih (by omega)]
    have hof : (BitVec.ofNat 4 k).toNat = k := by simp; omega
    by_cases hr : r = BitVec.ofNat 4 k
    · rw [if_pos hr, hr, hof, if_pos (Nat.lt_succ_self k)]
    · have hne : r.toNat ≠ k := fun e => hr (BitVec.eq_of_toNat_eq (by rw [hof, e]))
      rw [if_neg hr]
      by_cases hlt : r.toNat < k
      · rw [if_pos hlt, if_pos (by omega)]
      · rw [if_neg hlt, if_neg (by omega)]

@[simp] theorem firstRegs_length (x : RegIdx) : (firstRegs s x).length = x.toNat + 1 := by
  simp [firstRegs]

/-- The `k`-th byte a register dump stores is `V[k]`. -/
theorem firstRegs_getElem (x : RegIdx) {k : Nat} (h : k < (firstRegs s x).length) :
    (firstRegs s x)[k] = readV s (BitVec.ofNat 4 k) := by
  simp [firstRegs]

@[simp] theorem bcdDigits_length (b : Byte) : (bcdDigits b).length = 3 := rfl

/-! ## Pixels (10_state.md R37) -/

/-- Every pixel after one is flipped. -/
theorem pixel_flipPixel (fb : Screen) (x px : Fin 64) (y py : Fin 32) :
    pixel (flipPixel fb x y) px py =
      if px = x ∧ py = y then !pixel fb px py else pixel fb px py := by
  unfold flipPixel pixel
  rw [Vector.getElem_set]
  by_cases hy : py = y
  · subst hy
    simp only [if_true, Vector.getElem_set, and_true, Fin.val_inj, eq_comm (a := x)]
    split <;> simp_all
  · have hne : y.val ≠ py.val := fun e => hy (Fin.ext e.symm)
    simp [hy, hne]

theorem pixel_clearScreen (x : Fin 64) (y : Fin 32) : pixel clearScreen x y = false := by
  simp [pixel, clearScreen]

/-- A screen is its pixels. -/
theorem screen_ext {f g : Screen} (h : ∀ x y, pixel f x y = pixel g x y) : f = g := by
  apply Vector.ext
  intro y hy
  apply Vector.ext
  intro x hx
  exact h ⟨x, hx⟩ ⟨y, hy⟩

end Sys2Proof.Machine
end

