-- ==== Sys2Proof/Laws/Draw.lean ====
section
/-! SUPPORT. What the framebuffer writer does (43_display.md R151 to R154): each pixel of a drawn sprite is
flipped once, and the collision bit is a lit bit on a lit pixel of the canvas before. -/

namespace Sys2Proof.Machine

/-- Sprite column `col` lands in framebuffer column `px`, with its bit lit. -/
def ColumnLit (x0 : Nat) (b : Byte) (col : Nat) (px : Fin 64) : Prop :=
  spriteBit b col = true ∧ wrapX (x0 + col) = px

theorem wrapX_inj {x0 c d : Nat} (hc : c < 64) (hd : d < 64) (h : wrapX (x0 + c) = wrapX (x0 + d)) :
    c = d := by
  have h : (x0 + c) % 64 = (x0 + d) % 64 := congrArg Fin.val h
  omega

theorem wrapY_inj {y0 r q : Nat} (hr : r < 32) (hq : q < 32) (h : wrapY (y0 + r) = wrapY (y0 + q)) :
    r = q := by
  have h : (y0 + r) % 32 = (y0 + q) % 32 := congrArg Fin.val h
  omega

variable (x0 y0 row : Nat) (b : Byte) (c : Canvas)

/-- The canvas after the first `k` columns of a sprite row. -/
def drawColumns (k : Nat) : Canvas := (List.range k).foldl (drawBit x0 y0 row b) c

theorem drawColumns_succ (k : Nat) :
    drawColumns x0 y0 row b c (k + 1) = drawBit x0 y0 row b (drawColumns x0 y0 row b c k) k := by
  simp [drawColumns, List.range_succ, List.foldl_append]

theorem drawRow_eq_drawColumns : drawRow x0 y0 row b c = drawColumns x0 y0 row b c 8 := rfl

open Classical in
theorem pixel_drawColumns {k : Nat} (hk : k ≤ 8) (px : Fin 64) (py : Fin 32) :
    pixel (drawColumns x0 y0 row b c k).1 px py =
      (pixel c.1 px py ^^ decide (wrapY (y0 + row) = py ∧ ∃ col < k, ColumnLit x0 b col px)) := by
  induction k with
  | zero => simp [drawColumns]
  | succ k ih =>
    rw [drawColumns_succ, drawBit]
    have ih := ih (by omega)
    by_cases hb : spriteBit b k = true
    · rw [if_pos hb, pixel_flipPixel, ih]
      by_cases hp : px = wrapX (x0 + k) ∧ py = wrapY (y0 + row)
      · obtain ⟨rfl, rfl⟩ := hp
        have hnot : ¬ ∃ col < k, ColumnLit x0 b col (wrapX (x0 + k)) := by
          rintro ⟨col, hc, -, e⟩
          have := wrapX_inj (by omega) (by omega) e
          omega
        have hyes : ∃ col < k + 1, ColumnLit x0 b col (wrapX (x0 + k)) := ⟨k, by omega, hb, rfl⟩
        rw [decide_eq_false (fun h => hnot h.2), decide_eq_true (And.intro rfl hyes)]
        simp
      · rw [if_neg hp]
        have : (wrapY (y0 + row) = py ∧ ∃ col < k, ColumnLit x0 b col px) ↔
            (wrapY (y0 + row) = py ∧ ∃ col < k + 1, ColumnLit x0 b col px) := by
          refine and_congr_right fun hy => ⟨fun ⟨col, hc, h⟩ => ⟨col, by omega, h⟩, fun ⟨col, hc, h⟩ => ?_⟩
          refine ⟨col, lt_of_le_of_ne (by omega) ?_, h⟩
          rintro rfl
          exact hp ⟨h.2.symm, hy.symm⟩
        simp only [this]
    · rw [if_neg hb, ih]
      have : (∃ col < k, ColumnLit x0 b col px) ↔ ∃ col < k + 1, ColumnLit x0 b col px := by
        refine ⟨fun ⟨col, hc, h⟩ => ⟨col, by omega, h⟩, fun ⟨col, hc, h⟩ => ?_⟩
        refine ⟨col, lt_of_le_of_ne (by omega) ?_, h⟩
        rintro rfl
        exact hb h.1
      simp only [this]

theorem hit_drawColumns {k : Nat} (hk : k ≤ 8) :
    (drawColumns x0 y0 row b c k).2 = true ↔
      c.2 = true ∨ ∃ col < k, spriteBit b col = true ∧
        pixel c.1 (wrapX (x0 + col)) (wrapY (y0 + row)) = true := by
  induction k with
  | zero => simp [drawColumns]
  | succ k ih =>
    have ih := ih (by omega)
    rw [drawColumns_succ, drawBit]
    have hsplit : (∃ col < k + 1, spriteBit b col = true ∧
          pixel c.1 (wrapX (x0 + col)) (wrapY (y0 + row)) = true) ↔
        (∃ col < k, spriteBit b col = true ∧ pixel c.1 (wrapX (x0 + col)) (wrapY (y0 + row)) = true) ∨
          (spriteBit b k = true ∧ pixel c.1 (wrapX (x0 + k)) (wrapY (y0 + row)) = true) := by
      simp only [Nat.lt_succ_iff_lt_or_eq, or_and_right, exists_or, exists_eq_left]
    have hold : pixel (drawColumns x0 y0 row b c k).1 (wrapX (x0 + k)) (wrapY (y0 + row)) =
        pixel c.1 (wrapX (x0 + k)) (wrapY (y0 + row)) := by
      rw [pixel_drawColumns x0 y0 row b c (by omega)]
      have hnot : ¬ ∃ col < k, ColumnLit x0 b col (wrapX (x0 + k)) := by
        rintro ⟨col, hc, -, e⟩
        have := wrapX_inj (by omega) (by omega) e
        omega
      simp [hnot]
    rw [hsplit]
    by_cases hb : spriteBit b k = true
    · rw [if_pos hb]
      simp only [Bool.or_eq_true, ih, hold, hb, true_and, or_assoc]
    · rw [if_neg hb, ih]
      simp [hb]

variable (m : Memory) (base : Nat)

open Classical in
/-- Every pixel after the first `n` rows of a sprite are drawn (R154). -/
theorem pixel_drawRows {n : Nat} (hn : n ≤ 32) (px : Fin 64) (py : Fin 32) :
    pixel (drawRows m base x0 y0 c n).1 px py =
      (pixel c.1 px py ^^ decide (∃ r < n, wrapY (y0 + r) = py ∧
        ∃ col < 8, ColumnLit x0 (Memory.read m (base + r)) col px)) := by
  induction n with
  | zero => simp [drawRows]
  | succ n ih =>
    have ih := ih (by omega)
    rw [drawRows, drawRow_eq_drawColumns, pixel_drawColumns _ _ _ _ _ (le_refl 8), ih, Bool.xor_assoc]
    congr 1
    by_cases hy : wrapY (y0 + n) = py
    · have hnot : ¬ ∃ r < n, wrapY (y0 + r) = py ∧
          ∃ col < 8, ColumnLit x0 (Memory.read m (base + r)) col px := by
        rintro ⟨r, hr, e, -⟩
        have := wrapY_inj (by omega) (by omega) (e.trans hy.symm)
        omega
      have hiff : (∃ r < n + 1, wrapY (y0 + r) = py ∧
            ∃ col < 8, ColumnLit x0 (Memory.read m (base + r)) col px) ↔
          ∃ col < 8, ColumnLit x0 (Memory.read m (base + n)) col px := by
        constructor
        · rintro ⟨r, hr, e, h⟩
          have := wrapY_inj (by omega) (by omega) (e.trans hy.symm)
          exact this ▸ h
        · exact fun h => ⟨n, by omega, hy, h⟩
      simp only [hnot, hiff]
      simp [hy]
    · have hiff : (∃ r < n + 1, wrapY (y0 + r) = py ∧
            ∃ col < 8, ColumnLit x0 (Memory.read m (base + r)) col px) ↔
          ∃ r < n, wrapY (y0 + r) = py ∧
            ∃ col < 8, ColumnLit x0 (Memory.read m (base + r)) col px := by
        constructor
        · rintro ⟨r, hr, e, h⟩
          refine ⟨r, lt_of_le_of_ne (by omega) ?_, e, h⟩
          rintro rfl
          exact hy e
        · exact fun ⟨r, hr, h⟩ => ⟨r, by omega, h⟩
      simp only [hiff]
      simp [hy]

/-- The collision bit after the first `n` rows of a sprite are drawn (R154): the pixels before decide. -/
theorem hit_drawRows {n : Nat} (hn : n ≤ 32) :
    (drawRows m base x0 y0 c n).2 = true ↔
      c.2 = true ∨ ∃ r < n, ∃ col < 8, spriteBit (Memory.read m (base + r)) col = true ∧
        pixel c.1 (wrapX (x0 + col)) (wrapY (y0 + r)) = true := by
  induction n with
  | zero => simp [drawRows]
  | succ n ih =>
    have ih := ih (by omega)
    rw [drawRows, drawRow_eq_drawColumns, hit_drawColumns _ _ _ _ _ (le_refl 8), ih, or_assoc]
    have hold : ∀ px, pixel (drawRows m base x0 y0 c n).1 px (wrapY (y0 + n)) =
        pixel c.1 px (wrapY (y0 + n)) := by
      intro px
      rw [pixel_drawRows x0 y0 c m base (by omega)]
      have hnot : ¬ ∃ r < n, wrapY (y0 + r) = wrapY (y0 + n) ∧
          ∃ col < 8, ColumnLit x0 (Memory.read m (base + r)) col px := by
        rintro ⟨r, hr, e, -⟩
        have := wrapY_inj (by omega) (by omega) e
        omega
      simp [hnot]
    simp only [hold]
    have hsplit : (∃ r < n + 1, ∃ col < 8, spriteBit (Memory.read m (base + r)) col = true ∧
          pixel c.1 (wrapX (x0 + col)) (wrapY (y0 + r)) = true) ↔
        (∃ r < n, ∃ col < 8, spriteBit (Memory.read m (base + r)) col = true ∧
          pixel c.1 (wrapX (x0 + col)) (wrapY (y0 + r)) = true) ∨
        (∃ col < 8, spriteBit (Memory.read m (base + n)) col = true ∧
          pixel c.1 (wrapX (x0 + col)) (wrapY (y0 + n)) = true) := by
      simp only [Nat.lt_succ_iff_lt_or_eq, or_and_right, exists_or, exists_eq_left]
    rw [hsplit]

end Sys2Proof.Machine
end

