-- ==== Sys2Proof/Laws/PerInstr.lean ====
section
/-! SUPPORT. Statements about every instruction as syntax, one lemma per constructor. `HighNibble`: the high
nibble of an encoded instruction selects its family (30_encoding.md R84). -/

namespace Sys2Proof.Laws.HighNibble

/-- The high nibbles an instruction's word can have: its family of R84; an unmatched word lies in family `0`, `8`,
`E` or `F` (R90). -/
def families : Instr → List Nibble
  | .cls => [0x0#4]
  | .ret => [0x0#4]
  | .jp _ => [0x1#4]
  | .call _ => [0x2#4]
  | .seImm _ _ => [0x3#4]
  | .sneImm _ _ => [0x4#4]
  | .seReg _ _ _ => [0x5#4]
  | .ldImm _ _ => [0x6#4]
  | .addImm _ _ => [0x7#4]
  | .ldReg _ _ => [0x8#4]
  | .orReg _ _ => [0x8#4]
  | .andReg _ _ => [0x8#4]
  | .xorReg _ _ => [0x8#4]
  | .addReg _ _ => [0x8#4]
  | .subReg _ _ => [0x8#4]
  | .shrReg _ _ => [0x8#4]
  | .subnReg _ _ => [0x8#4]
  | .shlReg _ _ => [0x8#4]
  | .sneReg _ _ _ => [0x9#4]
  | .ldI _ => [0xA#4]
  | .jpV0 _ => [0xB#4]
  | .rnd _ _ => [0xC#4]
  | .drw _ _ _ => [0xD#4]
  | .skp _ => [0xE#4]
  | .sknp _ => [0xE#4]
  | .ldVxDT _ => [0xF#4]
  | .ldVxK _ => [0xF#4]
  | .ldDTVx _ => [0xF#4]
  | .ldSTVx _ => [0xF#4]
  | .addI _ => [0xF#4]
  | .ldF _ => [0xF#4]
  | .ldB _ => [0xF#4]
  | .ldMemVx _ => [0xF#4]
  | .ldVxMem _ => [0xF#4]
  | .nop _ => [0x0#4, 0x8#4, 0xE#4, 0xF#4]

/-- The high nibble of a well-formed instruction's word is one of its families. -/
def Statement (i : Instr) : Prop := i.wf = true → fieldOp (encode i) ∈ families i

theorem cls : Statement .cls := fun _ => by decide
theorem ret : Statement .ret := fun _ => by decide
theorem jp (nnn : Addr12) : Statement (.jp nnn) := fun _ => by simp [encode, families]
theorem call (nnn : Addr12) : Statement (.call nnn) := fun _ => by simp [encode, families]
theorem seImm (x : RegIdx) (nn : Byte) : Statement (.seImm x nn) := fun _ => by simp [encode, families]
theorem sneImm (x : RegIdx) (nn : Byte) : Statement (.sneImm x nn) := fun _ => by simp [encode, families]
theorem seReg (x : RegIdx) (y : RegIdx) (ign : Nibble) : Statement (.seReg x y ign) := fun _ => by simp [encode, families]
theorem ldImm (x : RegIdx) (nn : Byte) : Statement (.ldImm x nn) := fun _ => by simp [encode, families]
theorem addImm (x : RegIdx) (nn : Byte) : Statement (.addImm x nn) := fun _ => by simp [encode, families]
theorem ldReg (x : RegIdx) (y : RegIdx) : Statement (.ldReg x y) := fun _ => by simp [encode, families]
theorem orReg (x : RegIdx) (y : RegIdx) : Statement (.orReg x y) := fun _ => by simp [encode, families]
theorem andReg (x : RegIdx) (y : RegIdx) : Statement (.andReg x y) := fun _ => by simp [encode, families]
theorem xorReg (x : RegIdx) (y : RegIdx) : Statement (.xorReg x y) := fun _ => by simp [encode, families]
theorem addReg (x : RegIdx) (y : RegIdx) : Statement (.addReg x y) := fun _ => by simp [encode, families]
theorem subReg (x : RegIdx) (y : RegIdx) : Statement (.subReg x y) := fun _ => by simp [encode, families]
theorem shrReg (x : RegIdx) (ign : Nibble) : Statement (.shrReg x ign) := fun _ => by simp [encode, families]
theorem subnReg (x : RegIdx) (y : RegIdx) : Statement (.subnReg x y) := fun _ => by simp [encode, families]
theorem shlReg (x : RegIdx) (ign : Nibble) : Statement (.shlReg x ign) := fun _ => by simp [encode, families]
theorem sneReg (x : RegIdx) (y : RegIdx) (ign : Nibble) : Statement (.sneReg x y ign) := fun _ => by simp [encode, families]
theorem ldI (nnn : Addr12) : Statement (.ldI nnn) := fun _ => by simp [encode, families]
theorem jpV0 (nnn : Addr12) : Statement (.jpV0 nnn) := fun _ => by simp [encode, families]
theorem rnd (x : RegIdx) (nn : Byte) : Statement (.rnd x nn) := fun _ => by simp [encode, families]
theorem drw (x : RegIdx) (y : RegIdx) (n : Nibble) : Statement (.drw x y n) := fun _ => by simp [encode, families]
theorem skp (x : RegIdx) : Statement (.skp x) := fun _ => by simp [encode, families]
theorem sknp (x : RegIdx) : Statement (.sknp x) := fun _ => by simp [encode, families]
theorem ldVxDT (x : RegIdx) : Statement (.ldVxDT x) := fun _ => by simp [encode, families]
theorem ldVxK (x : RegIdx) : Statement (.ldVxK x) := fun _ => by simp [encode, families]
theorem ldDTVx (x : RegIdx) : Statement (.ldDTVx x) := fun _ => by simp [encode, families]
theorem ldSTVx (x : RegIdx) : Statement (.ldSTVx x) := fun _ => by simp [encode, families]
theorem addI (x : RegIdx) : Statement (.addI x) := fun _ => by simp [encode, families]
theorem ldF (x : RegIdx) : Statement (.ldF x) := fun _ => by simp [encode, families]
theorem ldB (x : RegIdx) : Statement (.ldB x) := fun _ => by simp [encode, families]
theorem ldMemVx (x : RegIdx) : Statement (.ldMemVx x) := fun _ => by simp [encode, families]
theorem ldVxMem (x : RegIdx) : Statement (.ldVxMem x) := fun _ => by simp [encode, families]

theorem nop (word : Word) : Statement (.nop word) := by
  intro h
  simp only [Instr.wf, unmatched, Bool.or_eq_true, Bool.and_eq_true, beq_iff_eq] at h
  rcases h with ((h | h) | h) | h <;> simp [encode, families, fieldOp, h.1]

end Sys2Proof.Laws.HighNibble
end

