-- ==== Sys2Proof/Laws/Step.lean ====
section
/-! SUPPORT. Everything a `step` event can do (45_cycle_and_host_events.md R171), the free value as its random input,
and the word `withFetchWord` makes the next step run. -/

namespace Sys2Proof.Machine

variable (s : State)

/-- The word at `PC` (20_memory.md R58), in any state. -/
def wordAtPC : Word := wordOfBytes (Memory.read s.mem s.pc.toNat) (Memory.read s.mem (s.pc.toNat + 1))

theorem fetch_eq_some (h : s.pc.toNat ≤ 4094) : fetch s = some (wordAtPC s) := by
  have hin : inMemory s.pc 2 := Or.inr (show s.pc.toNat + 2 ≤ 4096 by omega)
  rw [fetch, if_pos hin, wordAtPC]

theorem fetch_eq_none (h : 4094 < s.pc.toNat) : fetch s = none := by
  have hout : ¬ inMemory s.pc 2 := by
    rintro (h' | h')
    · exact absurd h' (by decide)
    · have h' : s.pc.toNat + 2 ≤ 4096 := h'
      omega
  rw [fetch, if_neg hout]

/-- Everything a `step` event can do: nothing when faulted or waiting, a fetch fault, or one instruction. -/
theorem stepWith_cases (rnd : Byte) :
    (s.fault ≠ none ∧ stepWith rnd s = .next s) ∨
    (s.fault = none ∧ s.wait = true ∧ stepWith rnd s = .next s) ∨
    (Running s ∧ 4094 < s.pc.toNat ∧ stepWith rnd s = raise .outOfBounds s) ∨
    (Running s ∧ s.pc.toNat ≤ 4094 ∧ stepWith rnd s = execWith rnd (decode (wordAtPC s)) s) := by
  by_cases hf : s.fault = none
  · by_cases hw : s.wait = true
    · exact Or.inr (Or.inl ⟨hf, hw, by simp [stepWith, hf, hw]⟩)
    · have hr : Running s := ⟨hf, by simpa using hw⟩
      refine Or.inr (Or.inr ?_)
      by_cases hp : s.pc.toNat ≤ 4094
      · exact Or.inr ⟨hr, hp, by simp [stepWith, hf, hw, fetch_eq_some s hp]⟩
      · exact Or.inl ⟨hr, by omega, by simp [stepWith, hf, hw, fetch_eq_none s (by omega)]⟩
  · refine Or.inl ⟨hf, ?_⟩
    have : s.fault.isSome = true := Option.isSome_iff_ne_none.2 hf
    simp [stepWith, this]

/-- With the free value of the next draw as random input, an instruction of a `step` is `exec` of it. -/
theorem execWith_free (i : Instr) : execWith (Config.randomByte s.draws) i s = exec i s := by
  cases i <;> rfl

/-- Every instruction but `Cxnn` ignores the random input (41_alu.md R135). -/
theorem execWith_of_ne_rnd (rnd : Byte) {i : Instr} (h : ∀ x nn, i ≠ .rnd x nn) :
    execWith rnd i s = exec i s := by
  cases i <;> first | rfl | exact absurd rfl (h _ _)

theorem fetchAddr_le : (fetchAddr s).toNat ≤ 4094 := by
  unfold fetchAddr
  split
  · rename_i h
    rcases h with h | h
    · exact absurd h (by decide)
    · have h : s.pc.toNat + 2 ≤ 4096 := h
      omega
  · decide

theorem wordAtPC_withFetchWord (nbits w : Nat) :
    wordAtPC (s.withFetchWord nbits w) = BitVec.ofNat 16 (w % 2 ^ nbits) := by
  have h0 : ∀ k (b : Byte), k < 2 → (bytesOfWord (BitVec.ofNat 16 (w % 2 ^ nbits)))[k]? = some b →
      Memory.read (s.withFetchWord nbits w).mem ((fetchAddr s).toNat + k) = b := by
    intro k b hk hb
    rw [State.withFetchWord, storeBytes_mem, Memory.read_writeBytes]
    have hlen : (bytesOfWord (BitVec.ofNat 16 (w % 2 ^ nbits))).length = 2 := rfl
    rw [dif_pos ⟨by omega, by omega⟩]
    have hsub : (fetchAddr s).toNat + k - (fetchAddr s).toNat = k := by omega
    simp only [hsub]
    exact (List.getElem?_eq_some_iff.1 hb).2
  show wordOfBytes (Memory.read _ ((fetchAddr s).toNat + 0)) (Memory.read _ ((fetchAddr s).toNat + 1)) = _
  rw [h0 0 _ (by decide) rfl, h0 1 _ (by decide) rfl]
  exact wordOfBytes_bytesOfWord _

/-- The very next step runs exactly the word placed by `withFetchWord`, from any state. -/
theorem step_withFetchWord (nbits w : Nat) :
    step (s.withFetchWord nbits w) =
      exec (decode (BitVec.ofNat 16 (w % 2 ^ nbits))) (s.withFetchWord nbits w) := by
  have hp : (s.withFetchWord nbits w).pc.toNat ≤ 4094 := fetchAddr_le s
  rw [step]
  rcases stepWith_cases (s.withFetchWord nbits w) (Config.randomByte (s.withFetchWord nbits w).draws) with
    h | h | h | h
  · exact absurd rfl h.1
  · exact absurd h.2.1 (by simp [State.withFetchWord])
  · omega
  · rw [h.2.2, wordAtPC_withFetchWord, execWith_free]

/-- From reset `withFetchWord` changes memory only. -/
theorem withFetchWord_reset (nbits w : Nat) :
    State.withFetchWord .reset nbits w =
      { State.reset with mem := (State.withFetchWord .reset nbits w).mem } := rfl

end Sys2Proof.Machine
end

