-- ==== Sys2Proof/Tests/Slice0.lean ====
section
/-! SUPPORT. Tests of the model against the worked examples and vectors of spec/95_test_vectors.md (their ids stand in
the comments), the smoke test of WellFormed, and the witnesses that the hypotheses of the statements can be met. -/

namespace Sys2Proof.Tests

open Sys2Proof.Machine

/-! ## Helpers -/

/-- The reset state with a word placed where the next step fetches. -/
def placed (w : Nat) (s : State) : State := s.withFetchWord 16 w

/-- A check on an answer that is a next state. -/
def nextIs (r : Result) (p : State → Bool) : Bool :=
  match r with
  | .next t => p t
  | .fault _ => false
  | .refused _ => false

/-- A check on the state one step on a placed word gives. -/
def stepGives (w : Nat) (s : State) (p : State → Bool) : Bool := nextIs (step (placed w s)) p

/-- The reset state with registers set. -/
def withRegs (l : List (RegIdx × Byte)) : State := l.foldl (fun s p => writeV s p.1 p.2) State.reset

/-- The reset state with `I` set and bytes stored. -/
def withMem (i : Word) (a : Nat) (bs : List Byte) : State := storeBytes a bs (setI i State.reset)

/-- Some bytes read from an address on. -/
def bytesFrom (s : State) (a k : Nat) : List Byte := (List.range k).map (fun j => Memory.read s.mem (a + j))

/-- The lit pixels of a rectangle, as (column, row). -/
def litIn (s : State) (xs : List (Fin 64)) (ys : List (Fin 32)) : List (Nat × Nat) :=
  ys.flatMap (fun y => (xs.filter (fun x => pixel s.fb x y)).map (fun x => (x.val, y.val)))

/-! ## Well-formedness: a `nop` that holds a defined word is refused, one family each -/

theorem test_wf_refuses_nop_of_cls : Instr.wf (.nop 0x00E0#16) = false := by decide
theorem test_wf_refuses_nop_of_family8 : Instr.wf (.nop 0x8126#16) = false := by decide
theorem test_wf_refuses_nop_of_familyE : Instr.wf (.nop 0xE1A1#16) = false := by decide
theorem test_wf_refuses_nop_of_familyF : Instr.wf (.nop 0xF10A#16) = false := by decide
theorem test_wf_refuses_nop_of_family5 : Instr.wf (.nop 0x5001#16) = false := by decide
theorem test_wf_accepts_nop_of_unmatched : Instr.wf (.nop 0x01E0#16) = true := by decide

/-! ## Decoding: words written out bit by bit from the encodings of R86 -/

theorem test_decode_fixed :
    decode 0b0000000011100000#16 = .cls ∧ decode 0b0000000011101110#16 = .ret := by decide
theorem test_decode_nnn :
    decode 0b0001101010111100#16 = .jp 0xABC#12 ∧ decode 0b0010101010111100#16 = .call 0xABC#12 ∧
    decode 0b1010101010111100#16 = .ldI 0xABC#12 ∧ decode 0b1011101010111100#16 = .jpV0 0xABC#12 := by
  decide
theorem test_decode_xnn :
    decode 0b0011101001011100#16 = .seImm 0xA#4 0x5C#8 ∧ decode 0b0100101001011100#16 = .sneImm 0xA#4 0x5C#8 ∧
    decode 0b0110101001011100#16 = .ldImm 0xA#4 0x5C#8 ∧ decode 0b0111101001011100#16 = .addImm 0xA#4 0x5C#8 ∧
    decode 0b1100101001011100#16 = .rnd 0xA#4 0x5C#8 := by
  decide
theorem test_decode_xyn :
    decode 0b0101101001010000#16 = .seReg 0xA#4 0x5#4 0x0#4 ∧ decode 0b1001101001010011#16 = .sneReg 0xA#4 0x5#4 0x3#4 ∧
    decode 0b1101101001011001#16 = .drw 0xA#4 0x5#4 0x9#4 := by
  decide
theorem test_decode_family8 :
    decode 0b1000101001010000#16 = .ldReg 0xA#4 0x5#4 ∧ decode 0b1000101001010001#16 = .orReg 0xA#4 0x5#4 ∧
    decode 0b1000101001010010#16 = .andReg 0xA#4 0x5#4 ∧ decode 0b1000101001010011#16 = .xorReg 0xA#4 0x5#4 ∧
    decode 0b1000101001010100#16 = .addReg 0xA#4 0x5#4 ∧ decode 0b1000101001010101#16 = .subReg 0xA#4 0x5#4 ∧
    decode 0b1000101001010110#16 = .shrReg 0xA#4 0x5#4 ∧ decode 0b1000101001010111#16 = .subnReg 0xA#4 0x5#4 ∧
    decode 0b1000101001011110#16 = .shlReg 0xA#4 0x5#4 := by
  decide
theorem test_decode_familyE :
    decode 0b1110101010011110#16 = .skp 0xA#4 ∧ decode 0b1110101010100001#16 = .sknp 0xA#4 := by decide
theorem test_decode_familyF :
    decode 0b1111101000000111#16 = .ldVxDT 0xA#4 ∧ decode 0b1111101000001010#16 = .ldVxK 0xA#4 ∧
    decode 0b1111101000010101#16 = .ldDTVx 0xA#4 ∧ decode 0b1111101000011000#16 = .ldSTVx 0xA#4 ∧
    decode 0b1111101000011110#16 = .addI 0xA#4 ∧ decode 0b1111101000101001#16 = .ldF 0xA#4 ∧
    decode 0b1111101000110011#16 = .ldB 0xA#4 ∧ decode 0b1111101001010101#16 = .ldMemVx 0xA#4 ∧
    decode 0b1111101001100101#16 = .ldVxMem 0xA#4 := by
  decide
/-- E3 to E6, E10, E14, E15, E19. -/
theorem test_decode_nop :
    ([0x0000#16, 0x01E0#16, 0x0FEE#16, 0x00E1#16, 0x8AB8#16, 0x8ABF#16, 0xE19F#16, 0xE1A0#16, 0xF100#16,
      0xF175#16, 0xFFFF#16].all fun w => decode w == .nop w) = true := by decide
/-- Fewer than two bytes are rejected by name. -/
theorem test_decode_truncated : decodeBytes [0x60#8] = .error .truncated := by
  rw [decodeBytes_error_iff]
  decide
theorem test_encode_words :
    encode (.addReg 0x1#4 0x2#4) = 0x8124#16 ∧ encode (.jpV0 0xFFF#12) = 0xBFFF#16 ∧
    encode (.drw 0x7#4 0xA#4 0x9#4) = 0xD7A9#16 ∧ encode (.ldVxMem 0xF#4) = 0xFF65#16 := by decide

/-! ## Control flow (95_test_vectors.md 2.2) -/

/-- CF1 -/
theorem test_jp : stepGives 0x1234 .reset (fun t => t.pc == 0x234#16) = true := by decide
/-- CF5 -/
theorem test_call_sixteenth : stepGives 0x2300 { State.reset with sp := 15 } (fun t =>
    t.stack[15] == 0x200#16 && t.sp == 16 && t.pc == 0x300#16 && t.fault == none) = true := by decide
/-- CF6 -/
theorem test_call_overflows : stepGives 0x2300 { State.reset with sp := 16 } (fun t =>
    t == { placed 0x2300 { State.reset with sp := 16 } with fault := some .stackOverflow }) = true := by decide
/-- CF8 -/
theorem test_ret : stepGives 0x00EE
    { State.reset with sp := 16, stack := (Vector.replicate 16 0#16).set 15 0x0ABC#16 } (fun t =>
    t.sp == 15 && t.pc == 0x0ABE#16 && t.stack[15] == 0x0ABC#16) = true := by decide
/-- CF7 -/
theorem test_ret_underflows : stepGives 0x00EE .reset (fun t =>
    t.fault == some .stackUnderflow && t.pc == 0x200#16 && t.sp == 0) = true := by decide
/-- CF11 -/
theorem test_jpV0 : stepGives 0xBFFF (withRegs [(0x0#4, 0xFF#8)]) (fun t =>
    t.pc == 0x10FE#16 && readV t VF == 0#8 && t.fault == none) = true := by decide
/-- CF13, CF14 -/
theorem test_seImm : (stepGives 0x3A00 .reset (fun t => t.pc == 0x204#16) &&
    stepGives 0x3A01 .reset (fun t => t.pc == 0x202#16)) = true := by decide
/-- CF15, CF16 -/
theorem test_sneImm : (stepGives 0x4A00 .reset (fun t => t.pc == 0x202#16) &&
    stepGives 0x4A01 .reset (fun t => t.pc == 0x204#16)) = true := by decide
/-- CF18, CF19 -/
theorem test_seReg : (stepGives 0x5AB0 (withRegs [(0xA#4, 9#8), (0xB#4, 8#8)]) (fun t => t.pc == 0x202#16) &&
    stepGives 0x5AB7 (withRegs [(0xA#4, 9#8), (0xB#4, 9#8)]) (fun t => t.pc == 0x204#16)) = true := by decide
/-- CF20, CF21 -/
theorem test_sneReg : (stepGives 0x9AA0 (withRegs [(0xA#4, 9#8)]) (fun t => t.pc == 0x202#16) &&
    stepGives 0x9ABF (withRegs [(0xA#4, 9#8), (0xB#4, 8#8)]) (fun t => t.pc == 0x204#16)) = true := by decide
/-- E22: `01E0` is a no-op, not CLS. -/
theorem test_nop : stepGives 0x01E0 { State.reset with fb := flipPixel State.reset.fb 1 1 } (fun t =>
    t.pc == 0x202#16 && pixel t.fb 1 1) = true := by decide
/-- CF24, L11: no word can be fetched at 4095, whatever stands there. -/
theorem test_fetch_fault : nextIs (step { State.reset with pc := 0xFFF#16 }) (fun t =>
    t.fault == some .outOfBounds && t.pc == 0xFFF#16) = true := by decide
/-- CF25: a fetch at an odd address. -/
theorem test_fetch_odd : nextIs (step { withMem 0 0x201 [0x13#8, 0x00#8] with pc := 0x201#16 })
    (fun t => t.pc == 0x300#16) = true := by decide

/-! ## Arithmetic (2.3) -/

/-- A1 -/
theorem test_ldImm : stepGives 0x6FAB .reset (fun t => readV t VF == 0xAB#8 && t.pc == 0x202#16) = true := by decide
/-- A2 -/
theorem test_addImm : stepGives 0x7501 (withRegs [(0x5#4, 0xFF#8)]) (fun t =>
    readV t 0x5#4 == 0#8 && readV t VF == 0#8) = true := by decide
/-- A5 -/
theorem test_ldReg : stepGives 0x8AB0 (withRegs [(0xA#4, 0x01#8), (0xB#4, 0xEE#8)]) (fun t =>
    readV t 0xA#4 == 0xEE#8 && readV t 0xB#4 == 0xEE#8) = true := by decide
/-- A6 -/
theorem test_orReg : stepGives 0x8AB1 (withRegs [(0xA#4, 0x55#8), (0xB#4, 0xAA#8), (VF, 7#8)]) (fun t =>
    readV t 0xA#4 == 0xFF#8 && readV t VF == 7#8) = true := by decide
/-- A7 -/
theorem test_andReg : stepGives 0x8AB2 (withRegs [(0xA#4, 0x5F#8), (0xB#4, 0xA5#8), (VF, 7#8)]) (fun t =>
    readV t 0xA#4 == 0x05#8 && readV t VF == 7#8) = true := by decide
/-- A8 -/
theorem test_xorReg : stepGives 0x8AB3 (withRegs [(0xA#4, 0x5F#8), (0xB#4, 0xA5#8), (VF, 7#8)]) (fun t =>
    readV t 0xA#4 == 0xFA#8 && readV t VF == 7#8) = true := by decide
/-- A12: the flag is written, not kept. -/
theorem test_addReg : stepGives 0x8AB4 (withRegs [(0xA#4, 0x80#8), (0xB#4, 0x7F#8), (VF, 1#8)]) (fun t =>
    readV t 0xA#4 == 0xFF#8 && readV t VF == 0#8) = true := by decide
/-- A15, A16: `VF` as destination and as operand. -/
theorem test_addReg_VF : (stepGives 0x8FA4 (withRegs [(VF, 0xF0#8), (0xA#4, 0x20#8)]) (fun t => readV t VF == 1#8) &&
    stepGives 0x8AF4 (withRegs [(0xA#4, 0xFF#8), (VF, 1#8)]) (fun t =>
      readV t 0xA#4 == 0#8 && readV t VF == 1#8)) = true := by decide
/-- A19 -/
theorem test_subReg : stepGives 0x8AB5 (withRegs [(0xB#4, 1#8), (VF, 1#8)]) (fun t =>
    readV t 0xA#4 == 0xFF#8 && readV t VF == 0#8) = true := by decide
/-- A22 -/
theorem test_subReg_VF : stepGives 0x8FA5 (withRegs [(VF, 3#8), (0xA#4, 5#8)]) (fun t =>
    readV t VF == 0#8) = true := by decide
/-- A27 -/
theorem test_shrReg : stepGives 0x8AB6 (withRegs [(0xA#4, 0xFF#8), (0xB#4, 0x12#8)]) (fun t =>
    readV t 0xA#4 == 0x7F#8 && readV t 0xB#4 == 0x12#8 && readV t VF == 1#8) = true := by decide
/-- A31 -/
theorem test_shrReg_VF : stepGives 0x8FF6 (withRegs [(VF, 2#8)]) (fun t => readV t VF == 0#8) = true := by decide
/-- A25 -/
theorem test_subnReg : stepGives 0x8AB7 (withRegs [(0xA#4, 1#8), (0xB#4, 0xFF#8)]) (fun t =>
    readV t 0xA#4 == 0xFE#8 && readV t 0xB#4 == 0xFF#8 && readV t VF == 1#8) = true := by decide
/-- A34 -/
theorem test_shlReg : stepGives 0x8ABE (withRegs [(0xA#4, 0x40#8), (VF, 1#8)]) (fun t =>
    readV t 0xA#4 == 0x80#8 && readV t VF == 0#8) = true := by decide
/-- A35 -/
theorem test_shlReg_VF : stepGives 0x8FFE (withRegs [(VF, 0x81#8)]) (fun t => readV t VF == 1#8) = true := by decide
/-- A38: the random input of the event is `A5`. -/
theorem test_rnd : nextIs (stepWith 0xA5#8 (placed 0xCAF0 .reset)) (fun t =>
    readV t 0xA#4 == 0xA0#8 && t.pc == 0x202#16) = true := by decide
/-- A40: every other instruction ignores the random input. -/
theorem test_rnd_ignored : nextIs (stepWith 0xFF#8 (placed 0x6A11 .reset)) (fun t =>
    readV t 0xA#4 == 0x11#8) = true := by decide

/-! ## Index and memory (2.4) -/

/-- M1 -/
theorem test_ldI : stepGives 0xAFFF .reset (fun t => t.i == 0x0FFF#16) = true := by decide
/-- M4, M3 -/
theorem test_addI : (stepGives 0xF11E (setI 0xFFFF#16 (withRegs [(0x1#4, 1#8)])) (fun t =>
      t.i == 0#16 && readV t VF == 0#8) &&
    stepGives 0xF11E (setI 0x0FFF#16 (withRegs [(0x1#4, 1#8)])) (fun t => t.i == 0x1000#16)) = true := by decide
/-- M6, M7 -/
theorem test_ldF : (stepGives 0xF129 (withRegs [(0x1#4, 0xFF#8)]) (fun t => t.i == 0x4B#16) &&
    stepGives 0xF129 (withRegs [(0x1#4, 0x10#8)]) (fun t => t.i == 0#16)) = true := by decide
/-- M14: the last legal `I`. -/
theorem test_ldB : stepGives 0xF133 (setI 0x0FFD#16 (withRegs [(0x1#4, 109#8)])) (fun t =>
    bytesFrom t 0xFFD 3 == [1#8, 0#8, 9#8] && t.i == 0xFFD#16) = true := by decide
/-- M15: nothing is written. -/
theorem test_ldB_faults : stepGives 0xF133 (setI 0x0FFE#16 (withRegs [(0x1#4, 109#8)])) (fun t =>
    t.fault == some .outOfBounds && bytesFrom t 0xFFE 2 == [0#8, 0#8] && t.pc == 0x200#16) = true := by decide
/-- M18 -/
theorem test_ldMemVx : stepGives 0xF255 (setI 0x400#16 (withRegs [(0#4, 0x11#8), (1#4, 0x22#8), (2#4, 0x33#8)]))
    (fun t => bytesFrom t 0x400 4 == [0x11#8, 0x22#8, 0x33#8, 0#8] && t.i == 0x400#16) = true := by decide
/-- M20: all or nothing. -/
theorem test_ldMemVx_faults :
    stepGives 0xF355 (setI 0xFFD#16 (withRegs [(0#4, 1#8), (1#4, 2#8), (2#4, 3#8), (3#4, 4#8)]))
    (fun t => t.fault == some .outOfBounds && bytesFrom t 0xFFD 3 == [0#8, 0#8, 0#8]) = true := by decide
/-- M26: sixteen registers from the font (D22), `VF` as data. -/
theorem test_ldVxMem : stepGives 0xFF65 .reset (fun t =>
    (List.range 16).map (fun k => readV t (BitVec.ofNat 4 k)) ==
      [0xF0#8, 0x90#8, 0x90#8, 0x90#8, 0xF0#8, 0x20#8, 0x60#8, 0x20#8] ++
      [0x20#8, 0x70#8, 0xF0#8, 0x10#8, 0xF0#8, 0x80#8, 0xF0#8, 0xF0#8]) = true := by decide
/-- M25: nothing is loaded. -/
theorem test_ldVxMem_faults : stepGives 0xF165 (setI 0xFFF#16 (withRegs [(0#4, 5#8), (1#4, 6#8)])) (fun t =>
    t.fault == some .outOfBounds && readV t 0#4 == 5#8 && readV t 1#4 == 6#8) = true := by decide

/-! ## Display (2.5) -/

/-- D1 -/
theorem test_cls : stepGives 0x00E0
    { withRegs [(VF, 1#8)] with fb := flipPixel (flipPixel State.reset.fb 0 0) 63 31 } (fun t =>
    t.fb == State.reset.fb && readV t VF == 1#8 && t.pc == 0x202#16) = true := by decide
/-- D7: a sprite across the corner. -/
theorem test_drw_wraps : stepGives 0xD012
    (writeV (writeV (withMem 0x300#16 0x300 [0x80#8, 0x80#8]) 0#4 63#8) 1#4 31#8) (fun t =>
    litIn t [0, 62, 63] [0, 1, 30, 31] == [(63, 0), (63, 31)] && readV t VF == 0#8) = true := by decide
/-- D10: a collision. -/
theorem test_drw_collides : stepGives 0xD011
    { withMem 0x300#16 0x300 [0xC0#8] with fb := flipPixel State.reset.fb 1 0 } (fun t =>
    litIn t [0, 1, 2, 3] [0, 1] == [(0, 0)] && readV t VF == 1#8) = true := by decide

/-! ## Keypad and timers (2.6, 2.7) -/

/-- T3, T4 -/
theorem test_skp : (stepGives 0xEA9E (writeKey (withRegs [(0xA#4, 0x1F#8)]) 0xF#4 true) (fun t => t.pc == 0x204#16) &&
    stepGives 0xEA9E .reset (fun t => t.pc == 0x202#16)) = true := by decide
/-- T6, T5 -/
theorem test_sknp : (stepGives 0xEAA1 (writeKey (withRegs [(0xA#4, 0xF3#8)]) 0x3#4 true) (fun t => t.pc == 0x202#16) &&
    stepGives 0xEAA1 .reset (fun t => t.pc == 0x204#16)) = true := by decide
/-- T8 -/
theorem test_ldVxDT : stepGives 0xFA07 (setDT 0xC8#8 .reset) (fun t =>
    readV t 0xA#4 == 0xC8#8 && t.dt == 0xC8#8) = true := by decide
/-- T9 -/
theorem test_ldDTVx : stepGives 0xFA15 (withRegs [(0xA#4, 0xFF#8)]) (fun t => t.dt == 0xFF#8) = true := by decide
/-- T10 -/
theorem test_ldSTVx : stepGives 0xFA18 (withRegs [(0xA#4, 1#8)]) (fun t =>
    t.st == 1#8 && soundTimerActive t && t.dt == 0#8) = true := by decide
/-- K1 -/
theorem test_ldVxK : stepGives 0xF30A .reset (fun t =>
    t.wait && t.waitX == 3#4 && t.pc == 0x200#16) = true := by decide

/-! ## Events (2.6 to 2.8) -/

/-- K8: a key-wait resolved into `VF`. -/
theorem test_key_wait_resolved : nextIs (runEvents [.step 0#8, .keyDown 0#4] (placed 0xFF0A (withRegs [(VF, 0x55#8)])))
    (fun t => readV t VF == 0#8 && t.pc == 0x202#16 && !t.wait && readKey t 0#4) = true := by decide
/-- K9: a held key does not end the wait. -/
theorem test_key_held : nextIs (runEvents [.keyDown 5#4, .step 0#8, .keyDown 5#4] (placed 0xF20A .reset))
    (fun t => t.wait && t.pc == 0x200#16 && readV t 2#4 == 0#8) = true := by decide
/-- T11, T12 -/
theorem test_tick : nextIs (runEvents [.tickTimers, .tickTimers] { State.reset with dt := 2, st := 1 })
    (fun t => t.dt == 0#8 && t.st == 0#8) = true := by decide
/-- L4 -/
theorem test_load_twice :
    nextIs (runEvents [.load [0x11#8, 0x22#8, 0x33#8, 0x44#8], .load [0xAA#8]] .reset)
    (fun t => bytesFrom t 0x200 4 == [0xAA#8, 0x22#8, 0x33#8, 0x44#8]) = true := by decide
/-- L6: the font is restored, the ROM erased, the wait ended. -/
theorem test_reset : nextIs (handle .reset
    { withMem 0x123#16 0 [0x00#8] with wait := true, waitX := 5#4, pc := 0x456#16, sp := 3, dt := 7 })
    (fun t => t == State.reset && Memory.read t.mem 0 == 0xF0#8) = true := by decide
/-- D1, L8, E21: `FrameDirty`. -/
theorem test_frameDirty : frameDirty (placed 0x00E0 .reset) = true ∧ frameDirty (placed 0x6000 .reset) = false ∧
    frameDirty { placed 0x00E0 State.reset with fault := some .stackUnderflow } = false := by decide
/-- R40: the codes of the latch. -/
theorem test_faultCode : faultCode .reset = 0 ∧ faultCode { State.reset with fault := some .stackOverflow } = 1 ∧
    faultCode { State.reset with fault := some .stackUnderflow } = 2 ∧
    faultCode { State.reset with fault := some .outOfBounds } = 3 := by decide
/-- The canonical form: writing a reset value removes the cell. -/
theorem test_memory_canonical : Memory.write (Memory.write [] 5 0x11#8) 5 (Memory.blank 5) = [] := by decide

/-! ## Witnesses: the hypotheses of the statements can be met, each clause at a boundary -/

theorem witness_DecodeOfEncode : Instr.wf (.nop 0x0000#16) = true ∧ Instr.wf (.seReg 0xF#4 0xF#4 0xF#4) = true := by
  decide
theorem witness_Call : (∃ s : State, s.sp.val = 15) ∧ ∃ s : State, s.sp.val = 16 :=
  ⟨⟨{ State.reset with sp := 15 }, rfl⟩, ⟨{ State.reset with sp := 16 }, rfl⟩⟩
theorem witness_Return : (∃ s : State, s.sp.val = 1) ∧ ∃ s : State, s.sp.val = 0 :=
  ⟨⟨{ State.reset with sp := 1 }, rfl⟩, ⟨.reset, rfl⟩⟩
/-- Both outcomes of a comparison. -/
theorem witness_Comparison : ∃ s : State, readV s 0x1#4 = 0xFF#8 ∧ readV s 0x1#4 ≠ 0x00#8 ∧
    readV s 0x1#4 = readV s 0xF#4 ∧ readV s 0x1#4 ≠ readV s 0x0#4 :=
  ⟨withRegs [(0x1#4, 0xFF#8), (0xF#4, 0xFF#8)], by decide⟩
/-- A mask with a clear bit, for the random load; a destination that is not `VF`, for the shifts. -/
theorem witness_MaskAndDestination : (0x7F#8 : Byte).getLsbD 7 = false ∧ (0xE#4 : RegIdx) ≠ VF := by decide
theorem witness_Unmatched : unmatched 0x8AB8#16 = true ∧ fetch (placed 0x8AB8 .reset) = some 0x8AB8#16 := by decide
theorem witness_Add : ∃ s : State, (0x1#4 : RegIdx) ≠ VF ∧ 255 < (readV s 0x1#4).toNat + (readV s 0x2#4).toNat ∧
    (readV s 0x3#4).toNat + (readV s 0x1#4).toNat ≤ 255 :=
  ⟨withRegs [(0x1#4, 0xFF#8), (0x2#4, 0x01#8)], by decide⟩
theorem witness_Subtract : ∃ s : State, (readV s 0x1#4).toNat ≤ (readV s 0x2#4).toNat ∧
    (readV s 0x3#4).toNat < (readV s 0x1#4).toNat :=
  ⟨withRegs [(0x1#4, 0x01#8), (0x2#4, 0x01#8)], by decide⟩
theorem witness_RandomInput : (fetch (placed 0x6A11 .reset)).map (fun w => (decode w).row) = some 8 ∧
    Running (placed 0xC30F .reset) ∧ fetch (placed 0xC30F .reset) = some (0xC#4 ++ 0x3#4 ++ 0x0F#8) :=
  ⟨by decide, ⟨by decide, by decide⟩, by decide⟩
theorem witness_Bcd : (∃ s : State, s.i.toNat + 2 = 4095) ∧ ∃ s : State, s.i.toNat + 2 = 4096 :=
  ⟨⟨setI 0xFFD#16 .reset, by decide⟩, ⟨setI 0xFFE#16 .reset, by decide⟩⟩
theorem witness_DumpLoad : (∃ s : State, s.i.toNat + (0xF#4 : RegIdx).toNat = 4095) ∧
    ∃ s : State, s.i.toNat + (0xF#4 : RegIdx).toNat = 4096 :=
  ⟨⟨setI 0xFF0#16 .reset, by decide⟩, ⟨setI 0xFF1#16 .reset, by decide⟩⟩
theorem witness_Clear : Running (placed 0x00E0 .reset) ∧ fetch (placed 0x00E0 .reset) = some 0x00E0#16 :=
  ⟨⟨by decide, by decide⟩, by decide⟩
/-- A lit sprite bit, with and without a lit pixel under it. -/
theorem witness_DrawCollision : ∃ s : State, s.i.toNat + (0x1#4 : Nibble).toNat = 4096 ∧
    (Memory.read s.mem (effAddr s 0)).getLsbD 7 = true ∧ pixel s.fb (wrapX 0) (wrapY 0) = true ∧
    pixel s.fb (wrapX 1) (wrapY 0) = false :=
  ⟨{ withMem 0xFFF#16 0xFFF [0x80#8] with fb := flipPixel State.reset.fb 0 0 }, by decide⟩
theorem witness_DrawFaults : ∃ s : State, 0 < (0x1#4 : Nibble).toNat ∧ 4095 < s.i.toNat + (0x1#4 : Nibble).toNat - 1 ∧
    fetch s = some (0xD#4 ++ 0x0#4 ++ 0x1#4 ++ 0x1#4) :=
  ⟨placed 0xD011 (setI 0x1000#16 .reset), by decide⟩
theorem witness_DrawTwice : ∃ s : State, (0x0#4 : RegIdx) ≠ VF ∧ (0x1#4 : RegIdx) ≠ VF ∧
    s.i.toNat + (0xF#4 : Nibble).toNat = 4096 :=
  ⟨setI 0xFF1#16 .reset, by decide⟩
theorem witness_KeySkips : ∃ s : State, (0xF#4 : Nibble).toNat = (readV s 0xA#4).toNat % 16 ∧ readKey s 0xF#4 = true ∧
    (0x0#4 : Nibble).toNat = (readV s 0x0#4).toNat % 16 ∧ readKey s 0x0#4 = false :=
  ⟨writeKey (withRegs [(0xA#4, 0x1F#8)]) 0xF#4 true, by decide⟩
theorem witness_KeyWait : fetch (placed 0xF30A .reset) = some (0xF#4 ++ 0x3#4 ++ 0x0A#8) := by decide
theorem witness_KeyDown : (∃ s : State, s.wait = true ∧ readKey s 0xF#4 = false) ∧
    (∃ s : State, s.wait = true ∧ readKey s 0xF#4 = true) ∧ ∃ s : State, s.wait = false ∧ readKey s 0xF#4 = false :=
  ⟨⟨{ State.reset with wait := true }, by decide⟩, ⟨writeKey { State.reset with wait := true } 0xF#4 true, by decide⟩,
    ⟨.reset, by decide⟩⟩
theorem witness_Load : (List.replicate 3584 0xAB#8).length ≤ 3584 ∧ 3584 < (List.replicate 3585 0xAB#8).length := by
  simp only [List.length_replicate]
  decide
theorem witness_StepRuns : ∃ s : State, Running s ∧ s.pc.toNat = 4094 ∧
    decode (Memory.read s.mem s.pc.toNat ++ Memory.read s.mem (s.pc.toNat + 1)) = .nop 0x0000#16 ∧
    Instr.wf (.nop 0x0000#16) = true :=
  ⟨{ State.reset with pc := 0xFFE#16 }, ⟨rfl, rfl⟩, by decide, by decide, by decide⟩
/-- The clauses of R171: faulted, waiting, unfetchable, an instruction that faults, one that completes. -/
theorem witness_StepCycle : (∃ s : State, s.fault ≠ none) ∧ (∃ s : State, s.fault = none ∧ s.wait = true) ∧
    (∃ s : State, Running s ∧ s.pc.toNat = 4095) ∧
    (∃ s : State, Running s ∧ nextIs (stepWith 0#8 s) (fun t => t.fault.isSome) = true) ∧
    ∃ s : State, Running s ∧ nextIs (stepWith 0#8 s) (fun t => t.fault.isNone) = true :=
  ⟨⟨{ State.reset with fault := some .stackOverflow }, by decide⟩, ⟨{ State.reset with wait := true }, by decide⟩,
    ⟨{ State.reset with pc := 0xFFF#16 }, ⟨rfl, rfl⟩, by decide⟩,
    ⟨placed 0x00EE .reset, ⟨by decide, by decide⟩, by decide⟩, ⟨placed 0x00E0 .reset, ⟨by decide, by decide⟩, by decide⟩⟩
/-- The premises of the statements about a fault: `RET` at reset raises one. -/
theorem witness_Faults : State.reset.fault = none ∧ ∃ t, exec .ret State.reset = .next t ∧ t.fault ≠ none :=
  ⟨rfl, _, rfl, by decide⟩
theorem witness_FaultTerminal : ∃ s t : State, s.fault ≠ none ∧ s.wait = false ∧ handle (.step 0#8) s = .next t :=
  ⟨{ State.reset with fault := some .outOfBounds }, _, by decide, rfl, rfl⟩
theorem witness_WaitEnds : ∃ s t : State, s.wait = true ∧ s.fault = none ∧ handle (.keyDown 0x7#4) s = .next t :=
  ⟨{ State.reset with wait := true }, _, rfl, rfl, rfl⟩
theorem witness_Registers : mayWrite (.addReg 0x1#4 0x2#4) 0x2#4 = false ∧
    ∃ t, exec (.addReg 0x1#4 0x2#4) State.reset = .next t := ⟨by decide, _, rfl⟩
theorem witness_MemoryWriters : ∃ s : State, nextIs (exec (.ldB 0x1#4) s) (fun t =>
    Memory.read t.mem 0xFFF != Memory.read s.mem 0xFFF) = true :=
  ⟨setI 0xFFD#16 (withRegs [(0x1#4, 7#8)]), by decide⟩
theorem witness_ScreenChanges : (∃ s : State, frameDirty s = false ∧ nextIs (stepWith 0#8 s) (fun _ => true) = true) ∧
    ∃ s : State, frameDirty s = true ∧ nextIs (stepWith 0#8 s) (fun _ => true) = true :=
  ⟨⟨placed 0x6000 .reset, by decide⟩, ⟨placed 0x00E0 .reset, by decide⟩⟩
/-- Each premise of the statement about special state holds of some instruction. -/
theorem witness_SpecialState : nextIs (exec (.ldI 1#12) State.reset) (fun t => t.i != State.reset.i) = true ∧
    nextIs (exec (.call 1#12) State.reset) (fun t => t.sp != 0 && t.stack != State.reset.stack) = true ∧
    nextIs (exec (.ldDTVx 0x1#4) (withRegs [(0x1#4, 1#8)])) (fun t => t.dt != 0#8) = true ∧
    nextIs (exec (.ldSTVx 0x1#4) (withRegs [(0x1#4, 1#8)])) (fun t => t.st != 0#8) = true ∧
    nextIs (exec (.ldVxK 0x1#4) State.reset) (fun t => t.wait) = true ∧
    nextIs (loadRandom 0#8 0x1#4 0#8 State.reset) (fun t => t.draws != 0) = true := by decide
theorem witness_CallThenReturn : ∃ s : State, Running s ∧ fetch s = some (0x2#4 ++ 0xFFE#12) ∧ s.sp.val = 15 ∧
    (0xFFE#12 : Addr12).toNat ≤ 4094 ∧ Memory.read s.mem (0xFFE#12 : Addr12).toNat = 0x00#8 ∧
    Memory.read s.mem ((0xFFE#12 : Addr12).toNat + 1) = 0xEE#8 :=
  ⟨placed 0x2FFE { withMem 0 0xFFE [0x00#8, 0xEE#8] with sp := 15 }, ⟨by decide, by decide⟩, by decide⟩
theorem witness_StoreIsSeen : ∃ s : State, Running s ∧ fetch s = some (0xF#4 ++ 0x1#4 ++ 0x55#8) ∧
    s.i = s.pc + 2#16 ∧ 1 ≤ (0x1#4 : RegIdx).toNat ∧ s.i.toNat + (0x1#4 : RegIdx).toNat ≤ 4095 :=
  ⟨placed 0xF155 (setI 0x202#16 .reset), ⟨by decide, by decide⟩, by decide⟩
theorem witness_JumpToItself : ∃ s : State, Running s ∧ fetch s = some (0x1#4 ++ 0x200#12) ∧
    s.pc.toNat = (0x200#12 : Addr12).toNat :=
  ⟨placed 0x1200 .reset, ⟨by decide, by decide⟩, by decide⟩
/-- A state with a live stack cell and a listed byte meets the invariant, and a step from it answers. -/
theorem witness_Invariant : ∃ s t u : State, CoreInv s ∧ step s = .next t ∧ handle (.keyDown 0x1#4) s = .next u := by
  refine ⟨{ placed 0x00EE State.reset with sp := 1 }, _, _, ⟨?_, ?_, ?_, ?_, ?_⟩, rfl, rfl⟩
  · decide
  · decide
  · decide
  · decide
  · intro k h _
    simp [placed, State.withFetchWord, storeBytes, State.reset]
/-- A `step` event whose random byte is read, from a state that meets the invariant. -/
theorem witness_EveryEvent : ∃ s t : State, CoreInv s ∧ handle (.step 0xA5#8) s = .next t ∧ readV t 0x3#4 = 0x05#8 := by
  refine ⟨placed 0xC30F State.reset, _, ⟨?_, ?_, ?_, ?_, ?_⟩, rfl, ?_⟩
  · decide
  · decide
  · decide
  · decide
  · intro k h hk
    exact absurd hk (Nat.not_lt_zero k)
  · decide
theorem witness_AnyEvents : ∃ t, runEvents [.load [0x00#8, 0xE0#8], .step 0#8, .tickTimers] State.reset = .next t :=
  ⟨_, rfl⟩

end Sys2Proof.Tests
end

/-! ## Proofs: control flow (40_control_flow.md R101 to R103) -/

namespace Sys2Proof.Machine

/-! ### Words -/

theorem decode_jp_word (nnn : Addr12) : decode (0x1#4 ++ nnn) = .jp nnn := by
  change decode (formNNN 0x1#4 nnn) = .jp nnn
  simp [decode]

theorem decode_call_word (nnn : Addr12) : decode (0x2#4 ++ nnn) = .call nnn := by
  change decode (formNNN 0x2#4 nnn) = .call nnn
  simp [decode]

theorem decode_ret_word : decode 0x00EE#16 = .ret := by decide

/-! ### The frame -/

section Frame

variable {regs : RegIdx → Prop} {bytes : Nat → Prop} {parts : List Part} {s t : State}

theorem FrameExcept.refl (s : State) : FrameExcept regs bytes parts s s where
  regsSame _ _ := rfl
  memSame _ _ := rfl
  indexSame _ := rfl
  stackSame _ := ⟨rfl, rfl⟩
  delaySame _ := rfl
  soundSame _ := rfl
  keypadSame _ := rfl
  screenSame _ _ _ := rfl
  waitingSame _ := ⟨rfl, rfl⟩
  faultSame _ := rfl
  drawsSame _ := rfl

/-- The frame leaves `PC` out, so every `PC` update (`advance`, `skipIf`, `jumpTo`) keeps it. -/
theorem FrameExcept.withPc (h : FrameExcept regs bytes parts s t) (w : Word) :
    FrameExcept regs bytes parts s { t with pc := w } :=
  { h with }

/-- Where the frame excepts the stack, any stack and `SP` may be put in. -/
theorem FrameExcept.withStack (h : FrameExcept regs bytes parts s t) (hp : .stack ∈ parts)
    (cells : Vector Word 16) (n : Fin 17) :
    FrameExcept regs bytes parts s { t with stack := cells, sp := n } :=
  { h with stackSame := fun hn => absurd hp hn }

end Frame

/-! ### Push and pop (10_state.md R31) -/

variable {s t : State}

/-- A push below 16 live cells: the new top cell, the other cells, `SP` and the frame. -/
theorem push_of_lt (a : Word) (h : s.sp.val < 16) :
    ∃ t, push a s = some t ∧ t.stack[s.sp.val] = a ∧
      (∀ k (hk : k < 16), k ≠ s.sp.val → t.stack[k] = s.stack[k]) ∧
      t.sp.val = s.sp.val + 1 ∧ FrameExcept nothing nothing [.stack] s t := by
  refine ⟨_, (push_eq_some s).2 ⟨h, rfl⟩, ?_, ?_, rfl, (FrameExcept.refl s).withStack (by simp) _ _⟩
  · exact Vector.getElem_set_self h
  · intro k hk hne
    exact Vector.getElem_set_ne h hk hne.symm

/-- A pop with a live cell: the popped address, the kept cells, `SP` and the frame. -/
theorem pop_of_pos (h : 0 < s.sp.val) :
    ∃ t, pop s = some (s.stack[s.sp.val - 1]'(by omega), t) ∧ t.sp.val + 1 = s.sp.val ∧
      t.stack = s.stack ∧ FrameExcept nothing nothing [.stack] s t :=
  ⟨_, (pop_eq_some s).2 ⟨h, rfl, rfl⟩, Nat.sub_add_cancel h, rfl,
    (FrameExcept.refl s).withStack (by simp) s.stack _⟩

/-! ### What the three instructions answer -/

theorem exec_jp (nnn : Addr12) (s : State) : exec (.jp nnn) s = .next (jumpTo (zextAddr nnn) s) := rfl

theorem exec_call_of_push (nnn : Addr12) (h : push s.pc s = some t) :
    exec (.call nnn) s = .next (jumpTo (zextAddr nnn) t) := by
  change execCall nnn s = _
  rw [execCall, h]

theorem exec_call_of_full (nnn : Addr12) (h : s.sp.val = 16) :
    exec (.call nnn) s = raise .stackOverflow s := by
  change execCall nnn s = _
  rw [execCall, (push_eq_none s).2 h]

theorem exec_ret_of_pop {a : Word} (h : pop s = some (a, t)) :
    exec .ret s = .next (advance (jumpTo a t)) := by
  change execRet s = _
  rw [execRet, h]

theorem exec_ret_of_empty (h : s.sp.val = 0) : exec .ret s = raise .stackUnderflow s := by
  change execRet s = _
  rw [execRet, (pop_eq_none s).2 h]

/-! ### The obligations -/

/-- Settles O5: the jump is one `PC` update, which the frame leaves out. -/
theorem jumpSetsPc : Obligations.JumpSetsPc := by
  unfold Obligations.JumpSetsPc
  intro nnn s
  exact ⟨decode_jp_word nnn, _, exec_jp nnn s, zextAddr_toNat nnn, (FrameExcept.refl s).withPc _⟩

/-- Settles O6: by cases on the push, which answers below 16 live cells and not at 16. -/
theorem callPushesItsAddressAndJumps : Obligations.CallPushesItsAddressAndJumps := by
  unfold Obligations.CallPushesItsAddressAndJumps
  intro nnn s
  refine ⟨decode_call_word nnn, fun hlt => ?_, exec_call_of_full nnn⟩
  obtain ⟨t, hpush, htop, hcells, hsp, hframe⟩ := push_of_lt s.pc hlt
  exact ⟨_, exec_call_of_push nnn hpush, htop, hcells, hsp, zextAddr_toNat nnn, hframe.withPc _⟩

/-- Settles O7: by cases on the pop, which answers with a live cell and not with none. -/
theorem returnPopsAddressPlusTwo : Obligations.ReturnPopsAddressPlusTwo := by
  unfold Obligations.ReturnPopsAddressPlusTwo
  intro s
  refine ⟨decode_ret_word, fun hpos => ?_, exec_ret_of_empty⟩
  obtain ⟨t, hpop, hsp, hstack, hframe⟩ := pop_of_pos hpos
  exact ⟨_, exec_ret_of_pop hpop, hsp, hstack, rfl, hframe.withPc _⟩

end Sys2Proof.Machine

/-! ## Proofs: register load and arithmetic (41_alu.md R120, R121, R126, R127) -/

namespace Sys2Proof.Machine

/-! ### Words -/

theorem decode_ldImm_word (x : RegIdx) (nn : Byte) : decode (0x6#4 ++ x ++ nn) = .ldImm x nn := by
  change decode (formXNN 0x6#4 x nn) = .ldImm x nn
  simp [decode]

theorem decode_addImm_word (x : RegIdx) (nn : Byte) : decode (0x7#4 ++ x ++ nn) = .addImm x nn := by
  change decode (formXNN 0x7#4 x nn) = .addImm x nn
  simp [decode]

theorem decode_addReg_word (x y : RegIdx) : decode (0x8#4 ++ x ++ y ++ 0x4#4) = .addReg x y := by
  change decode (formXYN 0x8#4 x y 0x4#4) = .addReg x y
  simp [decode, decode8]

theorem decode_subReg_word (x y : RegIdx) : decode (0x8#4 ++ x ++ y ++ 0x5#4) = .subReg x y := by
  change decode (formXYN 0x8#4 x y 0x5#4) = .subReg x y
  simp [decode, decode8]

/-! ### The frame of a register write -/

/-- Where the frame excepts a register, any byte may be written to it. -/
theorem FrameExcept.withReg {regs : RegIdx → Prop} {bytes : Nat → Prop} {parts : List Part} {s t : State}
    (h : FrameExcept regs bytes parts s t) {x : RegIdx} (hx : regs x) (b : Byte) :
    FrameExcept regs bytes parts s (writeV t x b) :=
  { h with
    regsSame := fun r hr => by
      have hne : r ≠ x := fun e => hr (e ▸ hx)
      rw [readV_writeV_other t hne, h.regsSame r hr] }

variable {s : State} {x : RegIdx}

/-- An instruction that writes one register and goes on to the next word changes nothing else. -/
theorem frame_advance_writeV (b : Byte) :
    FrameExcept (fun r => r = x) nothing [] s (advance (writeV s x b)) :=
  ((FrameExcept.refl (regs := fun r => r = x) s).withReg rfl b).withPc _

/-- A flag-writing instruction that goes on to the next word changes its destination and `VF` only. -/
theorem frame_advance_writeResultAndFlag (b : Byte) (f : Bool) :
    FrameExcept (fun r => r = x ∨ r = VF) nothing [] s (advance (writeResultAndFlag s x b f)) :=
  (((FrameExcept.refl s).withReg (Or.inl rfl) b).withReg (Or.inr rfl) (flagByte f)).withPc _

/-! ### Results and flags (10_state.md R26, R27) -/

theorem readV_writeResultAndFlag_dest (hx : x ≠ VF) (b : Byte) (f : Bool) :
    readV (writeResultAndFlag s x b f) x = b := by
  rw [readV_writeResultAndFlag, if_neg hx, if_pos rfl]

/-- `VF` is written last, so it holds the flag for every destination, `VF` too. -/
theorem readV_writeResultAndFlag_VF (b : Byte) (f : Bool) :
    readV (writeResultAndFlag s x b f) VF = flagByte f := by
  rw [readV_writeResultAndFlag, if_pos rfl]

variable {a b : Byte}

theorem carryFlag_of_lt (h : 255 < a.toNat + b.toNat) : carryFlag a b = true := decide_eq_true h

theorem carryFlag_of_le (h : a.toNat + b.toNat ≤ 255) : carryFlag a b = false :=
  decide_eq_false (Nat.not_lt.2 h)

theorem notBorrowFlag_of_le (h : b.toNat ≤ a.toNat) : notBorrowFlag a b = true := decide_eq_true h

theorem notBorrowFlag_of_lt (h : a.toNat < b.toNat) : notBorrowFlag a b = false :=
  decide_eq_false (Nat.not_le.2 h)

/-- A difference with a borrow is 256 too much. -/
theorem toNat_sub_add_of_lt (h : a.toNat < b.toNat) : (a - b).toNat + b.toNat = a.toNat + 256 := by
  have hb := b.isLt
  rw [BitVec.toNat_sub_of_lt h]
  omega

/-! ### What the four instructions answer -/

theorem exec_ldImm (x : RegIdx) (nn : Byte) (s : State) :
    exec (.ldImm x nn) s = .next (advance (writeV s x nn)) := rfl

theorem exec_addImm (x : RegIdx) (nn : Byte) (s : State) :
    exec (.addImm x nn) s = .next (advance (writeV s x (readV s x + nn))) := rfl

theorem exec_addReg (x y : RegIdx) (s : State) :
    exec (.addReg x y) s = .next (advance (writeResultAndFlag s x (readV s x + readV s y)
      (carryFlag (readV s x) (readV s y)))) := rfl

theorem exec_subReg (x y : RegIdx) (s : State) :
    exec (.subReg x y) s = .next (advance (writeResultAndFlag s x (readV s x - readV s y)
      (notBorrowFlag (readV s x) (readV s y)))) := rfl

/-! ### The obligations -/

/-- Settles O11: one register write, which holds for `VF` as for every other register. -/
theorem loadImmediateStoresByte : Obligations.LoadImmediateStoresByte := by
  unfold Obligations.LoadImmediateStoresByte
  intro x nn s
  exact ⟨decode_ldImm_word x nn, _, exec_ldImm x nn s, readV_writeV_same s x nn, rfl, frame_advance_writeV nn⟩

/-- Settles O12: one register write, so `VF` lies in the frame unless it is the destination. -/
theorem addImmediateWritesNoFlag : Obligations.AddImmediateWritesNoFlag := by
  unfold Obligations.AddImmediateWritesNoFlag
  intro x nn s
  refine ⟨decode_addImm_word x nn, _, exec_addImm x nn s, ?_, rfl, frame_advance_writeV _⟩
  rw [advance_readV, readV_writeV_same, BitVec.toNat_add]

/-- Settles O14: by cases on the carry; the flag is written last, so it holds for `x = VF` too. -/
theorem addSetsCarry : Obligations.AddSetsCarry := by
  unfold Obligations.AddSetsCarry
  intro x y s
  refine ⟨decode_addReg_word x y, _, exec_addReg x y s, fun hx => ?_, fun hcarry => ?_, fun hfits => ?_,
    rfl, frame_advance_writeResultAndFlag _ _⟩
  · rw [advance_readV, readV_writeResultAndFlag_dest hx, BitVec.toNat_add]
  · rw [advance_readV, readV_writeResultAndFlag_VF, carryFlag_of_lt hcarry, flagByte_true]
  · rw [advance_readV, readV_writeResultAndFlag_VF, carryFlag_of_le hfits, flagByte_false]

/-- Settles O15: by cases on the borrow; the flag is written last, so it holds for `x = VF` too. -/
theorem subtractSetsNotBorrow : Obligations.SubtractSetsNotBorrow := by
  unfold Obligations.SubtractSetsNotBorrow
  intro x y s
  refine ⟨decode_subReg_word x y, _, exec_subReg x y s, fun hle => ⟨fun hx => ?_, ?_⟩,
    fun hlt => ⟨fun hx => ?_, ?_⟩, rfl, frame_advance_writeResultAndFlag _ _⟩
  · rw [advance_readV, readV_writeResultAndFlag_dest hx, BitVec.toNat_sub_of_le hle]
  · rw [advance_readV, readV_writeResultAndFlag_VF, notBorrowFlag_of_le hle, flagByte_true]
  · rw [advance_readV, readV_writeResultAndFlag_dest hx, toNat_sub_add_of_lt hlt]
  · rw [advance_readV, readV_writeResultAndFlag_VF, notBorrowFlag_of_lt hlt, flagByte_false]

end Sys2Proof.Machine

/-! ## Proofs: index register and memory (42_memory_index.md R140, R142, R143) -/

namespace Sys2Proof.Machine

/-! ### Words -/

theorem decode_ldI_word (nnn : Addr12) : decode (0xA#4 ++ nnn) = .ldI nnn := by
  change decode (formNNN 0xA#4 nnn) = .ldI nnn
  simp [decode]

/-- A word of family `F` is decoded by its low byte (30_encoding.md R84). -/
theorem decode_familyF_word (x : RegIdx) (kk : Byte) :
    decode (0xF#4 ++ x ++ kk) = decodeF (formXNN 0xF#4 x kk) := by
  change decode (formXNN 0xF#4 x kk) = _
  simp [decode]

theorem decode_ldF_word (x : RegIdx) : decode (0xF#4 ++ x ++ 0x29#8) = .ldF x := by
  rw [decode_familyF_word]
  simp [decodeF]

theorem decode_ldB_word (x : RegIdx) : decode (0xF#4 ++ x ++ 0x33#8) = .ldB x := by
  rw [decode_familyF_word]
  simp [decodeF]

/-! ### The frame of an index write and of a store -/

section Frame

variable {regs : RegIdx → Prop} {bytes : Nat → Prop} {parts : List Part} {s t : State}

/-- Where the frame excepts the index register, any word may be put in `I`. -/
theorem FrameExcept.withIndex (h : FrameExcept regs bytes parts s t) (hp : .index ∈ parts) (w : Word) :
    FrameExcept regs bytes parts s (setI w t) :=
  { h with indexSame := fun hn => absurd hp hn }

/-- Where the frame excepts the bytes of a run, any bytes may be stored there. -/
theorem FrameExcept.withStore (h : FrameExcept regs bytes parts s t) {a : Nat} {bs : List Byte}
    (hb : ∀ q, bytesAt a bs.length q → bytes q) : FrameExcept regs bytes parts s (storeBytes a bs t) :=
  { h with
    memSame := fun q hq => by
      have hout : ¬ (a ≤ q ∧ q < a + bs.length) := fun hin => hq (hb q hin)
      rw [storeBytes_mem, Memory.read_writeBytes_outside t.mem (by omega), h.memSame q hq] }

end Frame

variable {s : State}

/-- An instruction that writes `I` and goes on to the next word changes nothing else. -/
theorem frame_advance_setI (w : Word) : FrameExcept nothing nothing [.index] s (advance (setI w s)) :=
  ((FrameExcept.refl s).withIndex (by simp) w).withPc _

/-- An instruction that stores a run of bytes and goes on to the next word changes nothing else. -/
theorem frame_advance_storeBytes (a : Nat) (bs : List Byte) :
    FrameExcept nothing (bytesAt a bs.length) [] s (advance (storeBytes a bs s)) :=
  ((FrameExcept.refl s).withStore fun _ hq => hq).withPc _

/-! ### Stored bytes and digits (20_memory.md R54, 42_memory_index.md R143, R146) -/

/-- An access whose last byte is at most 4095 is in memory. -/
theorem inMemory_of_le {base : Word} {k : Nat} (h : base.toNat + k ≤ 4095) : inMemory base (k + 1) :=
  (inMemory_iff base (k + 1)).2 (Or.inr (by omega))

/-- An access whose last byte is above 4095 is not in memory. -/
theorem not_inMemory_of_lt {base : Word} {k : Nat} (h : 4095 < base.toNat + k) :
    ¬ inMemory base (k + 1) := by
  rw [inMemory_iff]
  omega

/-- Byte `k` of a run of writes is read back at its address. -/
theorem Memory.read_writeBytes_add (m : Memory) (a : Nat) {bs : List Byte} {k : Nat} (hk : k < bs.length) :
    read (writeBytes m a bs) (a + k) = bs[k] := by
  rw [read_writeBytes, dif_pos (by omega)]
  simp only [Nat.add_sub_cancel_left]

/-- Byte `k` of a run stored through `I` is read back at `I + k`. -/
theorem read_storeBytes_effAddr {bs : List Byte} {k : Nat} (hk : k < bs.length) :
    Memory.read (storeBytes (effAddr s 0) bs s).mem (effAddr s k) = bs[k] :=
  Memory.read_writeBytes_add s.mem (effAddr s 0) hk

/-- Each decimal digit of a byte fits the byte it is held in. -/
theorem bcdDigits_toNat (b : Byte) :
    (bcdDigits b).map BitVec.toNat = [b.toNat / 100, b.toNat / 10 % 10, b.toNat % 10] := by
  have hb := b.isLt
  have fits : ∀ n < 256, (BitVec.ofNat 8 n).toNat = n := fun n hn => Nat.mod_eq_of_lt hn
  simp only [bcdDigits, List.map_cons, List.map_nil]
  rw [fits _ (by omega), fits _ (by omega), fits _ (by omega)]

/-- Digit `k` of a conversion stored through `I` is read back at `I + k`. -/
theorem read_bcdDigits_effAddr (b : Byte) {k : Nat} (hk : k < 3) :
    (Memory.read (storeBytes (effAddr s 0) (bcdDigits b) s).mem (effAddr s k)).toNat =
      [b.toNat / 100, b.toNat / 10 % 10, b.toNat % 10][k] := by
  rw [read_storeBytes_effAddr (show k < (bcdDigits b).length from hk)]
  simp only [← bcdDigits_toNat, List.getElem_map]

/-! ### What the three instructions answer -/

theorem exec_ldI (nnn : Addr12) (s : State) :
    exec (.ldI nnn) s = .next (advance (setI (zextAddr nnn) s)) := rfl

theorem exec_ldF (x : RegIdx) (s : State) :
    exec (.ldF x) s = .next (advance (setI (glyphAddr (readV s x)) s)) := rfl

theorem exec_ldB_of_le (x : RegIdx) (h : s.i.toNat + 2 ≤ 4095) :
    exec (.ldB x) s = .next (advance (storeBytes (effAddr s 0) (bcdDigits (readV s x)) s)) := by
  change execLdB x s = _
  rw [execLdB, if_pos (inMemory_of_le h)]

theorem exec_ldB_of_lt (x : RegIdx) (h : 4095 < s.i.toNat + 2) :
    exec (.ldB x) s = raise .outOfBounds s := by
  change execLdB x s = _
  rw [execLdB, if_neg (not_inMemory_of_lt h)]

/-! ### The obligations -/

/-- Settles O20: one index write of the zero-extended address. -/
theorem setIndexStoresAddress : Obligations.SetIndexStoresAddress := by
  unfold Obligations.SetIndexStoresAddress
  intro nnn s
  exact ⟨decode_ldI_word nnn, _, exec_ldI nnn s, zextAddr_toNat nnn, rfl, frame_advance_setI _⟩

/-- Settles O22: one index write; the glyph address never wraps. -/
theorem fontAddressIsFiveTimesDigit : Obligations.FontAddressIsFiveTimesDigit := by
  unfold Obligations.FontAddressIsFiveTimesDigit
  intro x s
  exact ⟨decode_ldF_word x, _, exec_ldF x s, glyphAddr_toNat (readV s x), rfl, frame_advance_setI _⟩

/-- Settles O23: by cases on the range check of the three bytes, which is made before the first is stored. -/
theorem bcdStoresThreeDigits : Obligations.BcdStoresThreeDigits := by
  unfold Obligations.BcdStoresThreeDigits
  intro x s
  refine ⟨decode_ldB_word x, fun hin => ?_, exec_ldB_of_lt x⟩
  exact ⟨_, exec_ldB_of_le x hin, read_bcdDigits_effAddr _ (k := 0) (by decide),
    read_bcdDigits_effAddr _ (k := 1) (by decide), read_bcdDigits_effAddr _ (k := 2) (by decide), rfl,
    frame_advance_storeBytes _ (bcdDigits (readV s x))⟩

end Sys2Proof.Machine

/-! ## Proofs: display (43_display.md R150) -/

namespace Sys2Proof.Machine

theorem decode_cls_word : decode 0x00E0#16 = .cls := by decide

section

variable {regs : RegIdx → Prop} {bytes : Nat → Prop} {parts : List Part} {s t : State}

/-- Where the frame excepts the screen, any screen may be put in. -/
theorem FrameExcept.withScreen (h : FrameExcept regs bytes parts s t) (hp : .screen ∈ parts) (fb : Screen) :
    FrameExcept regs bytes parts s (setScreen fb t) :=
  { h with screenSame := fun hn => absurd hp hn }

/-- A running core reports `FrameDirty` iff the word it fetches draws and completes (R172). -/
theorem frameDirty_of_fetch {w : Word} (hr : Running s) (hf : fetch s = some w) :
    frameDirty s = (drawsScreen (decode w) && completed (exec (decode w) s)) := by
  obtain ⟨hfault, hwait⟩ := hr
  simp [frameDirty, hfault, hwait, hf]

end

theorem exec_cls (s : State) : exec .cls s = .next (advance (setScreen clearScreen s)) := rfl

/-- The clear never raises a fault: it completes unless one was latched before. -/
theorem completed_exec_cls (s : State) : completed (exec .cls s) = s.fault.isNone := rfl

/-- Settles O27: one screen write of zeroes; the report depends on the fetched word, not on the old screen. -/
theorem clearZeroesEveryPixel : Obligations.ClearZeroesEveryPixel := by
  unfold Obligations.ClearZeroesEveryPixel
  intro s
  refine ⟨decode_cls_word, ⟨_, exec_cls s, pixel_clearScreen, rfl, ?_⟩, fun hr hf => ?_⟩
  · exact ((FrameExcept.refl s).withScreen (by simp) clearScreen).withPc _
  · have hfault : s.fault = none := hr.1
    rw [frameDirty_of_fetch hr hf, decode_cls_word, completed_exec_cls, hfault]
    rfl

end Sys2Proof.Machine

/-! ## Proofs: timers (44_timer_key.md R162, R163, R165) -/

namespace Sys2Proof.Machine

/-! ### Words -/

theorem decode_ldVxDT_word (x : RegIdx) : decode (0xF#4 ++ x ++ 0x07#8) = .ldVxDT x := by
  rw [decode_familyF_word]
  simp [decodeF]

theorem decode_ldDTVx_word (x : RegIdx) : decode (0xF#4 ++ x ++ 0x15#8) = .ldDTVx x := by
  rw [decode_familyF_word]
  simp [decodeF]

theorem decode_ldSTVx_word (x : RegIdx) : decode (0xF#4 ++ x ++ 0x18#8) = .ldSTVx x := by
  rw [decode_familyF_word]
  simp [decodeF]

/-! ### The frame of a timer write -/

section Frame

variable {regs : RegIdx → Prop} {bytes : Nat → Prop} {parts : List Part} {s t : State}

/-- Where the frame excepts the delay timer, any byte may be put in `DT`. -/
theorem FrameExcept.withDelay (h : FrameExcept regs bytes parts s t) (hp : .delay ∈ parts) (b : Byte) :
    FrameExcept regs bytes parts s (setDT b t) :=
  { h with delaySame := fun hn => absurd hp hn }

/-- Where the frame excepts the sound timer, any byte may be put in `ST`. -/
theorem FrameExcept.withSound (h : FrameExcept regs bytes parts s t) (hp : .sound ∈ parts) (b : Byte) :
    FrameExcept regs bytes parts s (setST b t) :=
  { h with soundSame := fun hn => absurd hp hn }

end Frame

/-- An instruction that writes `DT` and goes on to the next word changes nothing else. -/
theorem frame_advance_setDT (b : Byte) (s : State) :
    FrameExcept nothing nothing [.delay] s (advance (setDT b s)) :=
  ((FrameExcept.refl s).withDelay (by simp) b).withPc _

/-- An instruction that writes `ST` and goes on to the next word changes nothing else. -/
theorem frame_advance_setST (b : Byte) (s : State) :
    FrameExcept nothing nothing [.sound] s (advance (setST b s)) :=
  ((FrameExcept.refl s).withSound (by simp) b).withPc _

/-- The output `sound_timer_active` is on exactly while `ST` is not 0 (R35). -/
theorem soundTimerActive_iff (s : State) : soundTimerActive s = true ↔ s.st ≠ 0#8 :=
  calc
    soundTimerActive s = true ↔ 0 < s.st.toNat := decide_eq_true_iff
    _ ↔ s.st.toNat ≠ 0 := Nat.pos_iff_ne_zero
    _ ↔ s.st ≠ 0#8 := BitVec.toNat_ne_iff_ne (y := 0#8)

/-! ### What the three instructions answer -/

theorem exec_ldVxDT (x : RegIdx) (s : State) :
    exec (.ldVxDT x) s = .next (advance (writeV s x s.dt)) := rfl

theorem exec_ldDTVx (x : RegIdx) (s : State) :
    exec (.ldDTVx x) s = .next (advance (setDT (readV s x) s)) := rfl

theorem exec_ldSTVx (x : RegIdx) (s : State) :
    exec (.ldSTVx x) s = .next (advance (setST (readV s x) s)) := rfl

/-! ### The obligation -/

/-- Settles O32: one register or timer write each; `sound_timer_active` follows `ST`, which holds `Vx` afterwards. -/
theorem timerAccessMovesTheByte : Obligations.TimerAccessMovesTheByte := by
  unfold Obligations.TimerAccessMovesTheByte
  intro x s
  refine ⟨decode_ldVxDT_word x, decode_ldDTVx_word x, decode_ldSTVx_word x, ?_, ?_, ?_⟩
  · exact ⟨_, exec_ldVxDT x s, readV_writeV_same s x s.dt, rfl, frame_advance_writeV s.dt⟩
  · exact ⟨_, exec_ldDTVx x s, rfl, rfl, frame_advance_setDT _ s⟩
  · exact ⟨_, exec_ldSTVx x s, rfl, soundTimerActive_iff _, rfl, frame_advance_setST _ s⟩

end Sys2Proof.Machine

/-! ## Proofs: host events (45_cycle_and_host_events.md R177) -/

namespace Sys2Proof.Machine

/-- Where the frame excepts the keypad, any latch bit may take any value. -/
theorem FrameExcept.withKey {regs : RegIdx → Prop} {bytes : Nat → Prop} {parts : List Part} {s t : State}
    (h : FrameExcept regs bytes parts s t) (hp : .keypad ∈ parts) (k : Nibble) (b : Bool) :
    FrameExcept regs bytes parts s (writeKey t k b) :=
  { h with keypadSame := fun hn => absurd hp hn }

theorem handle_keyUp (k : Nibble) (s : State) : handle (.keyUp k) s = .next (writeKey s k false) := rfl

/-- Settles O35: the event is one write of a latch bit, whatever the state. -/
theorem keyUpOnlyClearsItsBit : Obligations.KeyUpOnlyClearsItsBit := by
  unfold Obligations.KeyUpOnlyClearsItsBit
  intro k s
  refine ⟨_, handle_keyUp k s, writeKey_pc s k false, readKey_writeKey_same s k false, ?_, ?_⟩
  · exact fun q hq => readKey_writeKey_other s hq false
  · exact (FrameExcept.refl s).withKey (by simp) k false

end Sys2Proof.Machine

/-! ## Proofs: decoding and encoding (30_encoding.md R84 to R90) -/

namespace Sys2Proof.Machine

/-! ### Words -/

theorem decode_seImm_word (x : RegIdx) (nn : Byte) : decode (0x3#4 ++ x ++ nn) = .seImm x nn := by
  change decode (formXNN 0x3#4 x nn) = .seImm x nn
  simp [decode]

theorem decode_sneImm_word (x : RegIdx) (nn : Byte) : decode (0x4#4 ++ x ++ nn) = .sneImm x nn := by
  change decode (formXNN 0x4#4 x nn) = .sneImm x nn
  simp [decode]

theorem decode_seReg_word (x y : RegIdx) (z : Nibble) : decode (0x5#4 ++ x ++ y ++ z) = .seReg x y z := by
  change decode (formXYN 0x5#4 x y z) = .seReg x y z
  simp [decode]

theorem decode_sneReg_word (x y : RegIdx) (z : Nibble) : decode (0x9#4 ++ x ++ y ++ z) = .sneReg x y z := by
  change decode (formXYN 0x9#4 x y z) = .sneReg x y z
  simp [decode]

theorem decode_jpV0_word (nnn : Addr12) : decode (0xB#4 ++ nnn) = .jpV0 nnn := by
  change decode (formNNN 0xB#4 nnn) = .jpV0 nnn
  simp [decode]

theorem decode_rnd_word (x : RegIdx) (nn : Byte) : decode (0xC#4 ++ x ++ nn) = .rnd x nn := by
  change decode (formXNN 0xC#4 x nn) = .rnd x nn
  simp [decode]

theorem decode_drw_word (x y : RegIdx) (n : Nibble) : decode (0xD#4 ++ x ++ y ++ n) = .drw x y n := by
  change decode (formXYN 0xD#4 x y n) = .drw x y n
  simp [decode]

/-- A word of family `8` is decoded by its low nibble (30_encoding.md R84). -/
theorem decode_family8_word (x y : RegIdx) (sub : Nibble) :
    decode (0x8#4 ++ x ++ y ++ sub) = decode8 (formXYN 0x8#4 x y sub) := by
  change decode (formXYN 0x8#4 x y sub) = _
  simp [decode]

theorem decode_ldReg_word (x y : RegIdx) : decode (0x8#4 ++ x ++ y ++ 0x0#4) = .ldReg x y := by
  rw [decode_family8_word]
  simp [decode8]

theorem decode_orReg_word (x y : RegIdx) : decode (0x8#4 ++ x ++ y ++ 0x1#4) = .orReg x y := by
  rw [decode_family8_word]
  simp [decode8]

theorem decode_andReg_word (x y : RegIdx) : decode (0x8#4 ++ x ++ y ++ 0x2#4) = .andReg x y := by
  rw [decode_family8_word]
  simp [decode8]

theorem decode_xorReg_word (x y : RegIdx) : decode (0x8#4 ++ x ++ y ++ 0x3#4) = .xorReg x y := by
  rw [decode_family8_word]
  simp [decode8]

theorem decode_shrReg_word (x : RegIdx) (z : Nibble) : decode (0x8#4 ++ x ++ z ++ 0x6#4) = .shrReg x z := by
  rw [decode_family8_word]
  simp [decode8]

theorem decode_subnReg_word (x y : RegIdx) : decode (0x8#4 ++ x ++ y ++ 0x7#4) = .subnReg x y := by
  rw [decode_family8_word]
  simp [decode8]

theorem decode_shlReg_word (x : RegIdx) (z : Nibble) : decode (0x8#4 ++ x ++ z ++ 0xE#4) = .shlReg x z := by
  rw [decode_family8_word]
  simp [decode8]

/-- A word of family `E` is decoded by its low byte (30_encoding.md R84). -/
theorem decode_familyE_word (x : RegIdx) (kk : Byte) :
    decode (0xE#4 ++ x ++ kk) = decodeE (formXNN 0xE#4 x kk) := by
  change decode (formXNN 0xE#4 x kk) = _
  simp [decode]

theorem decode_skp_word (x : RegIdx) : decode (0xE#4 ++ x ++ 0x9E#8) = .skp x := by
  rw [decode_familyE_word]
  simp [decodeE]

theorem decode_sknp_word (x : RegIdx) : decode (0xE#4 ++ x ++ 0xA1#8) = .sknp x := by
  rw [decode_familyE_word]
  simp [decodeE]

theorem decode_ldVxK_word (x : RegIdx) : decode (0xF#4 ++ x ++ 0x0A#8) = .ldVxK x := by
  rw [decode_familyF_word]
  simp [decodeF]

theorem decode_addI_word (x : RegIdx) : decode (0xF#4 ++ x ++ 0x1E#8) = .addI x := by
  rw [decode_familyF_word]
  simp [decodeF]

theorem decode_ldMemVx_word (x : RegIdx) : decode (0xF#4 ++ x ++ 0x55#8) = .ldMemVx x := by
  rw [decode_familyF_word]
  simp [decodeF]

theorem decode_ldVxMem_word (x : RegIdx) : decode (0xF#4 ++ x ++ 0x65#8) = .ldVxMem x := by
  rw [decode_familyF_word]
  simp [decodeF]

/-! ### Unmatched words (R90) -/

theorem decode0_of_unmatched {w : Word} (h : unmatched0 w = true) : decode0 w = .nop w := by
  simp only [unmatched0, Bool.and_eq_true, Bool.not_eq_true', beq_eq_false_iff_ne] at h
  rw [decode0, if_neg h.1, if_neg h.2]

theorem decode8_of_unmatched {w : Word} (h : unmatched8 (fieldN w) = true) : decode8 w = .nop w := by
  unfold decode8
  split
  case h_10 => rfl
  all_goals
    rename_i hsub
    rw [hsub] at h
    exact absurd h (by decide)

theorem decodeE_of_unmatched {w : Word} (h : unmatchedE (fieldNN w) = true) : decodeE w = .nop w := by
  unfold decodeE
  split
  case h_3 => rfl
  all_goals
    rename_i hkk
    rw [hkk] at h
    exact absurd h (by decide)

theorem decodeF_of_unmatched {w : Word} (h : unmatchedF (fieldNN w) = true) : decodeF w = .nop w := by
  unfold decodeF
  split
  case h_10 => rfl
  all_goals
    rename_i hkk
    rw [hkk] at h
    exact absurd h (by decide)

/-- R90's table by family: the table's fields are those the decoder reads. -/
theorem unmatched_iff (w : Word) : unmatched w = true ↔
    (fieldOp w = 0x0#4 ∧ unmatched0 w = true) ∨ (fieldOp w = 0x8#4 ∧ unmatched8 (fieldN w) = true) ∨
    (fieldOp w = 0xE#4 ∧ unmatchedE (fieldNN w) = true) ∨
    (fieldOp w = 0xF#4 ∧ unmatchedF (fieldNN w) = true) := by
  simp only [unmatched, fieldOp, fieldN, fieldNN, Bool.or_eq_true, Bool.and_eq_true, beq_iff_eq, or_assoc]

theorem decode_of_unmatched {w : Word} (h : unmatched w = true) : decode w = .nop w := by
  rcases (unmatched_iff w).1 h with ⟨hop, h⟩ | ⟨hop, h⟩ | ⟨hop, h⟩ | ⟨hop, h⟩
  · simp only [decode, hop]
    exact decode0_of_unmatched h
  · simp only [decode, hop]
    exact decode8_of_unmatched h
  · simp only [decode, hop]
    exact decodeE_of_unmatched h
  · simp only [decode, hop]
    exact decodeF_of_unmatched h

/-- Settles O2: by cases on the instruction; each word is decoded by the lemma about its form. -/
theorem decodeOfEncodeGivesTheInstruction : Obligations.DecodeOfEncodeGivesTheInstruction := by
  unfold Obligations.DecodeOfEncodeGivesTheInstruction
  intro i hwf
  cases i with
  | cls => exact decode_cls_word
  | ret => exact decode_ret_word
  | jp nnn => exact decode_jp_word nnn
  | call nnn => exact decode_call_word nnn
  | seImm x nn => exact decode_seImm_word x nn
  | sneImm x nn => exact decode_sneImm_word x nn
  | seReg x y z => exact decode_seReg_word x y z
  | ldImm x nn => exact decode_ldImm_word x nn
  | addImm x nn => exact decode_addImm_word x nn
  | ldReg x y => exact decode_ldReg_word x y
  | orReg x y => exact decode_orReg_word x y
  | andReg x y => exact decode_andReg_word x y
  | xorReg x y => exact decode_xorReg_word x y
  | addReg x y => exact decode_addReg_word x y
  | subReg x y => exact decode_subReg_word x y
  | shrReg x z => exact decode_shrReg_word x z
  | subnReg x y => exact decode_subnReg_word x y
  | shlReg x z => exact decode_shlReg_word x z
  | sneReg x y z => exact decode_sneReg_word x y z
  | ldI nnn => exact decode_ldI_word nnn
  | jpV0 nnn => exact decode_jpV0_word nnn
  | rnd x nn => exact decode_rnd_word x nn
  | drw x y n => exact decode_drw_word x y n
  | skp x => exact decode_skp_word x
  | sknp x => exact decode_sknp_word x
  | ldVxDT x => exact decode_ldVxDT_word x
  | ldVxK x => exact decode_ldVxK_word x
  | ldDTVx x => exact decode_ldDTVx_word x
  | ldSTVx x => exact decode_ldSTVx_word x
  | addI x => exact decode_addI_word x
  | ldF x => exact decode_ldF_word x
  | ldB x => exact decode_ldB_word x
  | ldMemVx x => exact decode_ldMemVx_word x
  | ldVxMem x => exact decode_ldVxMem_word x
  | nop w => exact decode_of_unmatched hwf

/-! ### Every word is one instruction (R85) -/

section

variable {w : Word} {op : Nibble}

theorem formNNN_of_fieldOp (h : fieldOp w = op) : formNNN op (fieldNNN w) = w := by
  rw [← h, formNNN_fields]

theorem formXNN_of_fieldOp (h : fieldOp w = op) : formXNN op (fieldX w) (fieldNN w) = w := by
  rw [← h, formXNN_fields]

theorem formXYN_of_fieldOp (h : fieldOp w = op) : formXYN op (fieldX w) (fieldY w) (fieldN w) = w := by
  rw [← h, formXYN_fields]

/-- An instruction stands for a word: it is well formed and is encoded as the word. -/
def StandsFor (i : Instr) (w : Word) : Prop := i.wf = true ∧ encode i = w

theorem standsFor_nop (h : unmatched w = true) : StandsFor (.nop w) w := ⟨h, rfl⟩

theorem decode0_standsFor (hop : fieldOp w = 0x0#4) : StandsFor (decode0 w) w := by
  unfold decode0
  split_ifs with hcls hret
  · exact ⟨rfl, hcls.symm⟩
  · exact ⟨rfl, hret.symm⟩
  · exact standsFor_nop ((unmatched_iff w).2 (Or.inl ⟨hop, by simp [unmatched0, hcls, hret]⟩))

theorem unmatched8_of_ne (sub : Nibble) (h : sub ∉ [0x0#4, 0x1#4, 0x2#4, 0x3#4, 0x4#4, 0x5#4, 0x6#4, 0x7#4, 0xE#4]) :
    unmatched8 sub = true := by
  revert sub
  decide

theorem decode8_standsFor (hop : fieldOp w = 0x8#4) : StandsFor (decode8 w) w := by
  have hw : formXYN 0x8#4 (fieldX w) (fieldY w) (fieldN w) = w := formXYN_of_fieldOp hop
  unfold decode8
  split
  case h_10 =>
    refine standsFor_nop ((unmatched_iff w).2 (Or.inr (Or.inl ⟨hop, unmatched8_of_ne _ ?_⟩)))
    simp_all
  all_goals
    rename_i hsub
    rw [hsub] at hw
    exact ⟨rfl, hw⟩

theorem decodeE_standsFor (hop : fieldOp w = 0xE#4) : StandsFor (decodeE w) w := by
  have hw : formXNN 0xE#4 (fieldX w) (fieldNN w) = w := formXNN_of_fieldOp hop
  unfold decodeE
  split
  case h_3 =>
    refine standsFor_nop ((unmatched_iff w).2 (Or.inr (Or.inr (Or.inl ⟨hop, ?_⟩))))
    simp_all [unmatchedE]
  all_goals
    rename_i hkk
    rw [hkk] at hw
    exact ⟨rfl, hw⟩

theorem decodeF_standsFor (hop : fieldOp w = 0xF#4) : StandsFor (decodeF w) w := by
  have hw : formXNN 0xF#4 (fieldX w) (fieldNN w) = w := formXNN_of_fieldOp hop
  unfold decodeF
  split
  case h_10 =>
    refine standsFor_nop ((unmatched_iff w).2 (Or.inr (Or.inr (Or.inr ⟨hop, ?_⟩))))
    simp_all [unmatchedF]
  all_goals
    rename_i hkk
    rw [hkk] at hw
    exact ⟨rfl, hw⟩

/-- The last arm of the decode procedure is family `F`: the other fifteen have arms of their own. -/
theorem eq_F_of_ne (op : Nibble) (h : op ∉ [0x0#4, 0x1#4, 0x2#4, 0x3#4, 0x4#4, 0x5#4, 0x6#4, 0x7#4, 0x8#4, 0x9#4,
    0xA#4, 0xB#4, 0xC#4, 0xD#4, 0xE#4]) : op = 0xF#4 := by
  revert op
  decide

theorem decode_standsFor (w : Word) : StandsFor (decode w) w := by
  unfold decode
  split
  case h_1 hop => exact decode0_standsFor hop
  case h_2 hop => exact ⟨rfl, formNNN_of_fieldOp hop⟩
  case h_3 hop => exact ⟨rfl, formNNN_of_fieldOp hop⟩
  case h_4 hop => exact ⟨rfl, formXNN_of_fieldOp hop⟩
  case h_5 hop => exact ⟨rfl, formXNN_of_fieldOp hop⟩
  case h_6 hop => exact ⟨rfl, formXYN_of_fieldOp hop⟩
  case h_7 hop => exact ⟨rfl, formXNN_of_fieldOp hop⟩
  case h_8 hop => exact ⟨rfl, formXNN_of_fieldOp hop⟩
  case h_9 hop => exact decode8_standsFor hop
  case h_10 hop => exact ⟨rfl, formXYN_of_fieldOp hop⟩
  case h_11 hop => exact ⟨rfl, formNNN_of_fieldOp hop⟩
  case h_12 hop => exact ⟨rfl, formNNN_of_fieldOp hop⟩
  case h_13 hop => exact ⟨rfl, formXNN_of_fieldOp hop⟩
  case h_14 hop => exact ⟨rfl, formXYN_of_fieldOp hop⟩
  case h_15 hop => exact decodeE_standsFor hop
  case h_16 =>
    refine decodeF_standsFor (eq_F_of_ne _ ?_)
    simp_all

end

/-- Settles O3: the decode procedure answers, in each family, an instruction that stands for the word. -/
theorem everyWordIsOneWellFormedInstruction : Obligations.EveryWordIsOneWellFormedInstruction := by
  unfold Obligations.EveryWordIsOneWellFormedInstruction
  exact decode_standsFor

/-- Settles O1: thirteen evaluations of the decode procedure. -/
theorem fewSpecWordsDecode : Obligations.FewSpecWordsDecode := by
  unfold Obligations.FewSpecWordsDecode
  decide

end Sys2Proof.Machine

namespace Sys2Proof.Machine

/-! ### The opcode map (R86) -/

section

variable {r : OpcodeRow} {w : Word}

theorem holds_iff : r.holds w = true ↔ w &&& r.mask = r.pattern := beq_iff_eq

/-- A field that the mask of a row keeps whole is the same in every word of the row. -/
theorem extractLsb'_eq_of_holds (h : r.holds w = true) {start len : Nat}
    (hm : r.mask.extractLsb' start len = BitVec.allOnes len) :
    w.extractLsb' start len = r.pattern.extractLsb' start len := by
  rw [← holds_iff.1 h, BitVec.extractLsb'_and, hm, BitVec.and_allOnes]

theorem nibble_and_ones (a : Nibble) : a &&& 0xF#4 = a := BitVec.and_allOnes

theorem byte_and_ones (b : Byte) : b &&& 0xFF#8 = b := BitVec.and_allOnes

/-- Mask `F000` keeps the primary opcode. -/
theorem holds_formNNN (op : Nibble) (nnn : Addr12) :
    OpcodeRow.holds ⟨0xF000, formNNN op 0⟩ (formNNN op nnn) = true := by
  rw [holds_iff]
  change op ++ nnn &&& 0xF#4 ++ 0x000#12 = op ++ 0x000#12
  rw [BitVec.and_append, nibble_and_ones, BitVec.and_zero]

theorem holds_formXNN (op : Nibble) (x : RegIdx) (nn : Byte) :
    OpcodeRow.holds ⟨0xF000, formXNN op 0 0⟩ (formXNN op x nn) = true := by
  rw [holds_iff]
  change op ++ x ++ nn &&& 0xF#4 ++ 0x0#4 ++ 0x00#8 = op ++ 0x0#4 ++ 0x00#8
  simp only [BitVec.and_append, nibble_and_ones, BitVec.and_zero]

theorem holds_formXYN (op : Nibble) (x y : RegIdx) (n : Nibble) :
    OpcodeRow.holds ⟨0xF000, formXYN op 0 0 0⟩ (formXYN op x y n) = true := by
  rw [holds_iff]
  change op ++ x ++ y ++ n &&& 0xF#4 ++ 0x0#4 ++ 0x0#4 ++ 0x0#4 = op ++ 0x0#4 ++ 0x0#4 ++ 0x0#4
  simp only [BitVec.and_append, nibble_and_ones, BitVec.and_zero]

/-- Mask `F00F` keeps the primary opcode and the low nibble. -/
theorem holds_formXYN_sub (op : Nibble) (x y : RegIdx) (sub : Nibble) :
    OpcodeRow.holds ⟨0xF00F, formXYN op 0 0 sub⟩ (formXYN op x y sub) = true := by
  rw [holds_iff]
  change op ++ x ++ y ++ sub &&& 0xF#4 ++ 0x0#4 ++ 0x0#4 ++ 0xF#4 = op ++ 0x0#4 ++ 0x0#4 ++ sub
  simp only [BitVec.and_append, nibble_and_ones, BitVec.and_zero]

/-- Mask `F0FF` keeps the primary opcode and the low byte. -/
theorem holds_formXKK (op : Nibble) (x : RegIdx) (kk : Byte) :
    OpcodeRow.holds ⟨0xF0FF, formXNN op 0 kk⟩ (formXNN op x kk) = true := by
  rw [holds_iff]
  change op ++ x ++ kk &&& 0xF#4 ++ 0x0#4 ++ 0xFF#8 = op ++ 0x0#4 ++ kk
  simp only [BitVec.and_append, nibble_and_ones, byte_and_ones, BitVec.and_zero]

/-- The rows are disjoint, so a word two rows hold of is a word of one row. -/
theorem not_holds_of_lt {j k : Nat} (hjk : j < k) (hk : k < opcodeRows.length)
    (h : opcodeRows[k].holds w = true) : opcodeRows[j].holds w = false := by
  rw [Bool.eq_false_iff]
  intro hj
  refine List.pairwise_iff_getElem.1 opcodeRows_disjoint j k (by omega) hk hjk ?_
  rw [← holds_iff.1 hj, ← holds_iff.1 h]
  ac_rfl

/-- The row that holds of a word is its row of the map. -/
theorem tableRow_of_holds (k : Nat) (hk : opcodeRows[k]? = some r) (h : r.holds w = true) : tableRow w = k + 1 := by
  obtain ⟨hlt, rfl⟩ := List.getElem?_eq_some_iff.1 hk
  rw [tableRow, (List.findIdx_eq hlt).2 ⟨h, fun j hj => not_holds_of_lt hj hlt h⟩]

/-- Each row keeps the primary opcode, and in the families `0`, `8`, `E`, `F` also the field that R90's table looks
at, whose value in the row is a defined one. -/
theorem opcodeRows_keep_fields : ∀ r ∈ opcodeRows, fieldOp r.mask = 0xF#4 ∧
    (fieldOp r.pattern = 0x0#4 → r.mask = 0xFFFF#16 ∧ unmatched0 r.pattern = false) ∧
    (fieldOp r.pattern = 0x8#4 → fieldN r.mask = 0xF#4 ∧ unmatched8 (fieldN r.pattern) = false) ∧
    (fieldOp r.pattern = 0xE#4 → fieldNN r.mask = 0xFF#8 ∧ unmatchedE (fieldNN r.pattern) = false) ∧
    (fieldOp r.pattern = 0xF#4 → fieldNN r.mask = 0xFF#8 ∧ unmatchedF (fieldNN r.pattern) = false) := by
  decide

/-- A word of a row is in no line of R90's table. -/
theorem unmatched_of_holds (hr : r ∈ opcodeRows) (h : r.holds w = true) : unmatched w = false := by
  obtain ⟨hop, h0, h8, hE, hF⟩ := opcodeRows_keep_fields r hr
  have hfield : fieldOp w = fieldOp r.pattern := extractLsb'_eq_of_holds h hop
  rw [Bool.eq_false_iff]
  intro hu
  rcases (unmatched_iff w).1 hu with ⟨hw, hu⟩ | ⟨hw, hu⟩ | ⟨hw, hu⟩ | ⟨hw, hu⟩ <;> rw [hfield] at hw
  · obtain ⟨hm, hp⟩ := h0 hw
    have hwhole : w = r.pattern := by rw [← holds_iff.1 h, hm]; exact BitVec.and_allOnes.symm
    simp [hwhole, hp] at hu
  · obtain ⟨hm, hp⟩ := h8 hw
    have hsub : fieldN w = fieldN r.pattern := extractLsb'_eq_of_holds h hm
    simp [hsub, hp] at hu
  · obtain ⟨hm, hp⟩ := hE hw
    have hkk : fieldNN w = fieldNN r.pattern := extractLsb'_eq_of_holds h hm
    simp [hkk, hp] at hu
  · obtain ⟨hm, hp⟩ := hF hw
    have hkk : fieldNN w = fieldNN r.pattern := extractLsb'_eq_of_holds h hm
    simp [hkk, hp] at hu

/-- An unmatched word falls under the catch-all. -/
theorem tableRow_of_unmatched (h : unmatched w = true) : tableRow w = 35 := by
  have hnone : ∀ r ∈ opcodeRows, r.holds w = false := fun r hr => by
    by_contra hh
    simp [unmatched_of_holds hr (by simpa using hh)] at h
  rw [tableRow, List.findIdx_eq_length.2 hnone]
  rfl

theorem tableRow_encode (i : Instr) (hwf : i.wf = true) : tableRow (encode i) = i.row := by
  cases i with
  | cls => exact tableRow_of_holds 0 rfl (by decide)
  | ret => exact tableRow_of_holds 1 rfl (by decide)
  | jp nnn => exact tableRow_of_holds 2 rfl (holds_formNNN _ nnn)
  | call nnn => exact tableRow_of_holds 3 rfl (holds_formNNN _ nnn)
  | seImm x nn => exact tableRow_of_holds 4 rfl (holds_formXNN _ x nn)
  | sneImm x nn => exact tableRow_of_holds 5 rfl (holds_formXNN _ x nn)
  | seReg x y z => exact tableRow_of_holds 6 rfl (holds_formXYN _ x y z)
  | ldImm x nn => exact tableRow_of_holds 7 rfl (holds_formXNN _ x nn)
  | addImm x nn => exact tableRow_of_holds 8 rfl (holds_formXNN _ x nn)
  | ldReg x y => exact tableRow_of_holds 9 rfl (holds_formXYN_sub _ x y _)
  | orReg x y => exact tableRow_of_holds 10 rfl (holds_formXYN_sub _ x y _)
  | andReg x y => exact tableRow_of_holds 11 rfl (holds_formXYN_sub _ x y _)
  | xorReg x y => exact tableRow_of_holds 12 rfl (holds_formXYN_sub _ x y _)
  | addReg x y => exact tableRow_of_holds 13 rfl (holds_formXYN_sub _ x y _)
  | subReg x y => exact tableRow_of_holds 14 rfl (holds_formXYN_sub _ x y _)
  | shrReg x z => exact tableRow_of_holds 15 rfl (holds_formXYN_sub _ x z _)
  | subnReg x y => exact tableRow_of_holds 16 rfl (holds_formXYN_sub _ x y _)
  | shlReg x z => exact tableRow_of_holds 17 rfl (holds_formXYN_sub _ x z _)
  | sneReg x y z => exact tableRow_of_holds 18 rfl (holds_formXYN _ x y z)
  | ldI nnn => exact tableRow_of_holds 19 rfl (holds_formNNN _ nnn)
  | jpV0 nnn => exact tableRow_of_holds 20 rfl (holds_formNNN _ nnn)
  | rnd x nn => exact tableRow_of_holds 21 rfl (holds_formXNN _ x nn)
  | drw x y n => exact tableRow_of_holds 22 rfl (holds_formXYN _ x y n)
  | skp x => exact tableRow_of_holds 23 rfl (holds_formXKK _ x _)
  | sknp x => exact tableRow_of_holds 24 rfl (holds_formXKK _ x _)
  | ldVxDT x => exact tableRow_of_holds 25 rfl (holds_formXKK _ x _)
  | ldVxK x => exact tableRow_of_holds 26 rfl (holds_formXKK _ x _)
  | ldDTVx x => exact tableRow_of_holds 27 rfl (holds_formXKK _ x _)
  | ldSTVx x => exact tableRow_of_holds 28 rfl (holds_formXKK _ x _)
  | addI x => exact tableRow_of_holds 29 rfl (holds_formXKK _ x _)
  | ldF x => exact tableRow_of_holds 30 rfl (holds_formXKK _ x _)
  | ldB x => exact tableRow_of_holds 31 rfl (holds_formXKK _ x _)
  | ldMemVx x => exact tableRow_of_holds 32 rfl (holds_formXKK _ x _)
  | ldVxMem x => exact tableRow_of_holds 33 rfl (holds_formXKK _ x _)
  | nop w => exact tableRow_of_unmatched hwf

end

/-- Settles O4: a word is the encoding of what it decodes to, and an encoding falls under its instruction's row. -/
theorem decodeFollowsTheOpcodeMap : Obligations.DecodeFollowsTheOpcodeMap := by
  unfold Obligations.DecodeFollowsTheOpcodeMap
  intro w
  obtain ⟨hwf, hword⟩ := decode_standsFor w
  rw [← tableRow_encode _ hwf, hword]

end Sys2Proof.Machine

/-! ## Proofs: jumps, skips and no-op (40_control_flow.md R104 to R110, 44_timer_key.md R160, R161) -/

namespace Sys2Proof.Machine

variable {s : State}

theorem exec_jpV0 (nnn : Addr12) (s : State) :
    exec (.jpV0 nnn) s = .next (jumpTo (zextByte (readV s 0#4) + zextAddr nnn) s) := rfl

/-- Settles O8: two bounded summands, so the 16-bit sum is the sum over the integers. -/
theorem jumpWithOffsetAddsV0 : Obligations.JumpWithOffsetAddsV0 := by
  unfold Obligations.JumpWithOffsetAddsV0
  intro nnn s
  have hpc := jpV0_target_toNat (readV s 0#4) nnn
  have hv := (readV s 0#4).isLt
  have hn := nnn.isLt
  refine ⟨decode_jpV0_word nnn, _, exec_jpV0 nnn s, hpc, ?_, (FrameExcept.refl s).withPc _⟩
  rw [jumpTo_pc, hpc]
  omega

/-- A skip is one `PC` update. -/
theorem frame_skipIf (c : Bool) : FrameExcept nothing nothing [] s (skipIf c s) :=
  (FrameExcept.refl s).withPc _

theorem skipIf_pc_of_true {c : Bool} (h : c = true) : (skipIf c s).pc = s.pc + 4#16 := by
  rw [skipIf_pc, if_pos h]

theorem skipIf_pc_of_false {c : Bool} (h : c = false) : (skipIf c s).pc = s.pc + 2#16 := by
  rw [skipIf_pc, h, if_neg Bool.false_ne_true]

theorem exec_seImm (x : RegIdx) (nn : Byte) (s : State) :
    exec (.seImm x nn) s = .next (skipIf (readV s x == nn) s) := rfl

theorem exec_sneImm (x : RegIdx) (nn : Byte) (s : State) :
    exec (.sneImm x nn) s = .next (skipIf (readV s x != nn) s) := rfl

theorem exec_seReg (x y : RegIdx) (z : Nibble) (s : State) :
    exec (.seReg x y z) s = .next (skipIf (readV s x == readV s y) s) := rfl

theorem exec_sneReg (x y : RegIdx) (z : Nibble) (s : State) :
    exec (.sneReg x y z) s = .next (skipIf (readV s x != readV s y) s) := rfl

/-- A skip on equal bytes. -/
theorem skip_on_eq (a b : Byte) (s : State) : FrameExcept nothing nothing [] s (skipIf (a == b) s) ∧
    (a = b → (skipIf (a == b) s).pc = s.pc + 4#16) ∧ (a ≠ b → (skipIf (a == b) s).pc = s.pc + 2#16) :=
  ⟨frame_skipIf _, fun h => skipIf_pc_of_true (beq_iff_eq.2 h),
    fun h => skipIf_pc_of_false (beq_false_of_ne h)⟩

/-- A skip on unequal bytes. -/
theorem skip_on_ne (a b : Byte) (s : State) : FrameExcept nothing nothing [] s (skipIf (a != b) s) ∧
    (a ≠ b → (skipIf (a != b) s).pc = s.pc + 4#16) ∧ (a = b → (skipIf (a != b) s).pc = s.pc + 2#16) :=
  ⟨frame_skipIf _, fun h => skipIf_pc_of_true (bne_iff_ne.2 h),
    fun h => skipIf_pc_of_false (bne_eq_false_iff_eq.2 h)⟩

/-- Settles O9: two skips on equal bytes and two on unequal ones, of an immediate or a register. -/
theorem comparisonSkipsPassOneWord : Obligations.ComparisonSkipsPassOneWord := by
  unfold Obligations.ComparisonSkipsPassOneWord
  intro x y nn z s
  refine ⟨decode_seImm_word x nn, decode_sneImm_word x nn, decode_seReg_word x y z, decode_sneReg_word x y z,
    ?_, ?_, ?_, ?_⟩
  · exact ⟨_, exec_seImm x nn s, skip_on_eq _ _ s⟩
  · exact ⟨_, exec_sneImm x nn s, skip_on_ne _ _ s⟩
  · exact ⟨_, exec_seReg x y z s, skip_on_eq _ _ s⟩
  · exact ⟨_, exec_sneReg x y z s, skip_on_ne _ _ s⟩

theorem exec_skp (x : RegIdx) (s : State) :
    exec (.skp x) s = .next (skipIf (readKey s (lowNibble (readV s x))) s) := rfl

theorem exec_sknp (x : RegIdx) (s : State) :
    exec (.sknp x) s = .next (skipIf (!readKey s (lowNibble (readV s x))) s) := rfl

/-- The key whose number is the low nibble of a byte (R160). -/
theorem eq_lowNibble {k : Nibble} {b : Byte} (h : k.toNat = b.toNat % 16) : k = lowNibble b :=
  BitVec.eq_of_toNat_eq (h.trans (lowNibble_toNat b).symm)

/-- Settles O31: both skips test the latch bit that the low nibble of `Vx` names. -/
theorem keySkipsTestTheLatch : Obligations.KeySkipsTestTheLatch := by
  unfold Obligations.KeySkipsTestTheLatch
  intro x s
  refine ⟨decode_skp_word x, decode_sknp_word x, ⟨_, exec_skp x s, frame_skipIf _, fun k hk => ?_⟩,
    ⟨_, exec_sknp x s, frame_skipIf _, fun k hk => ?_⟩⟩
  · rw [eq_lowNibble hk]
    exact ⟨skipIf_pc_of_true, skipIf_pc_of_false⟩
  · rw [eq_lowNibble hk]
    exact ⟨fun h => skipIf_pc_of_true (by rw [h]; rfl), fun h => skipIf_pc_of_false (by rw [h]; rfl)⟩

theorem exec_nop (w : Word) (s : State) : exec (.nop w) s = .next (advance s) := rfl

theorem frame_advance : FrameExcept nothing nothing [] s (advance s) := (FrameExcept.refl s).withPc _

/-- All a report of `FrameDirty` can mean (R172): the core ran a drawing instruction to completion. -/
theorem frameDirty_iff : frameDirty s = true ↔ Running s ∧
    ∃ w, fetch s = some w ∧ drawsScreen (decode w) = true ∧ completed (exec (decode w) s) = true := by
  by_cases hr : Running s
  · cases hf : fetch s with
    | none => simp [frameDirty, hf]
    | some w => simp [frameDirty_of_fetch hr hf, hr]
  · refine ⟨fun h => ?_, fun h => absurd h.1 hr⟩
    unfold frameDirty at h
    split_ifs at h with hfault hwait
    exact absurd ⟨by simpa using hfault, by simpa using hwait⟩ hr

/-- A word that does not draw is not reported, in any state. -/
theorem frameDirty_of_not_draws {w : Word} (hf : fetch s = some w) (hd : drawsScreen (decode w) = false) :
    frameDirty s = false := by
  rw [Bool.eq_false_iff, Ne, frameDirty_iff]
  rintro ⟨-, w', hf', hd', -⟩
  rw [hf, Option.some.injEq] at hf'
  subst w'
  simp [hd] at hd'

/-- A word whose instruction does not complete is not reported. -/
theorem frameDirty_of_not_completed {w : Word} (hf : fetch s = some w)
    (hc : completed (exec (decode w) s) = false) : frameDirty s = false := by
  rw [Bool.eq_false_iff, Ne, frameDirty_iff]
  rintro ⟨-, w', hf', -, hc'⟩
  rw [hf, Option.some.injEq] at hf'
  subst w'
  simp [hc] at hc'

/-- Settles O10: the decode procedure gives the no-op, which is one `PC` update and does not draw. -/
theorem unmatchedWordOnlyAdvances : Obligations.UnmatchedWordOnlyAdvances := by
  unfold Obligations.UnmatchedWordOnlyAdvances
  intro w s hw
  have hdec := decode_of_unmatched hw
  exact ⟨hdec, ⟨_, exec_nop w s, advance_pc s, frame_advance⟩,
    fun hf => frameDirty_of_not_draws hf (by rw [hdec]; rfl)⟩

/-! ### Key wait (44_timer_key.md R166) -/

/-- Where the frame excepts the wait, a wait may begin. -/
theorem FrameExcept.withWaiting {regs : RegIdx → Prop} {bytes : Nat → Prop} {parts : List Part} {s t : State}
    (h : FrameExcept regs bytes parts s t) (hp : .waiting ∈ parts) (b : Bool) (x : RegIdx) :
    FrameExcept regs bytes parts s { t with wait := b, waitX := x } :=
  { h with waitingSame := fun hn => absurd hp hn }

theorem frame_awaitKey (x : RegIdx) : FrameExcept nothing nothing [.waiting] s (awaitKey x s) :=
  (FrameExcept.refl s).withWaiting (by simp) true x

theorem exec_ldVxK (x : RegIdx) (s : State) : exec (.ldVxK x) s = .next (awaitKey x s) := rfl

/-- Settles O33: one write of `WAIT` and `WAIT_X`, whatever the keypad holds; the instruction does not draw. -/
theorem keyWaitBeginsWithoutAdvancing : Obligations.KeyWaitBeginsWithoutAdvancing := by
  unfold Obligations.KeyWaitBeginsWithoutAdvancing
  intro x s
  have hdec := decode_ldVxK_word x
  exact ⟨hdec, ⟨_, exec_ldVxK x s, rfl, rfl, rfl, frame_awaitKey x⟩,
    fun hf => frameDirty_of_not_draws hf (by rw [hdec]; rfl)⟩

end Sys2Proof.Machine

/-! ## Proofs: assignment, bitwise, shifts and random (41_alu.md R122 to R125, R128 to R130, R135) -/

namespace Sys2Proof.Machine

variable {s : State}

theorem exec_ldReg (x y : RegIdx) (s : State) :
    exec (.ldReg x y) s = .next (advance (writeV s x (readV s y))) := rfl

theorem exec_orReg (x y : RegIdx) (s : State) :
    exec (.orReg x y) s = .next (advance (writeV s x (readV s x ||| readV s y))) := rfl

theorem exec_andReg (x y : RegIdx) (s : State) :
    exec (.andReg x y) s = .next (advance (writeV s x (readV s x &&& readV s y))) := rfl

theorem exec_xorReg (x y : RegIdx) (s : State) :
    exec (.xorReg x y) s = .next (advance (writeV s x (readV s x ^^^ readV s y))) := rfl

/-- The register read after a write and the `PC` update that ends an instruction. -/
theorem readV_advance_writeV (x : RegIdx) (b : Byte) : readV (advance (writeV s x b)) x = b :=
  readV_writeV_same s x b

/-- Settles O13: one register write each; its bits are the bits of the operands. -/
theorem assignAndBitwiseWriteNoFlag : Obligations.AssignAndBitwiseWriteNoFlag := by
  unfold Obligations.AssignAndBitwiseWriteNoFlag
  intro x y s
  refine ⟨decode_ldReg_word x y, decode_orReg_word x y, decode_andReg_word x y, decode_xorReg_word x y,
    ⟨_, exec_ldReg x y s, rfl, frame_advance_writeV _, readV_advance_writeV x _⟩,
    ⟨_, exec_orReg x y s, rfl, frame_advance_writeV _, fun k _ => ?_⟩,
    ⟨_, exec_andReg x y s, rfl, frame_advance_writeV _, fun k _ => ?_⟩,
    ⟨_, exec_xorReg x y s, rfl, frame_advance_writeV _, fun k _ => ?_⟩⟩
  · rw [readV_advance_writeV, BitVec.getLsbD_or]
  · rw [readV_advance_writeV, BitVec.getLsbD_and]
  · rw [readV_advance_writeV, BitVec.getLsbD_xor]

theorem exec_subnReg (x y : RegIdx) (s : State) :
    exec (.subnReg x y) s = .next (advance (writeResultAndFlag s x (readV s y - readV s x)
      (notBorrowFlag (readV s y) (readV s x)))) := rfl

/-- Settles O16: by cases on the borrow; the flag is written last, so it holds for `x = VF` too. -/
theorem reversedSubtractSetsNotBorrow : Obligations.ReversedSubtractSetsNotBorrow := by
  unfold Obligations.ReversedSubtractSetsNotBorrow
  intro x y s
  refine ⟨decode_subnReg_word x y, _, exec_subnReg x y s, fun hle => ⟨fun hx => ?_, ?_⟩,
    fun hlt => ⟨fun hx => ?_, ?_⟩, rfl, frame_advance_writeResultAndFlag _ _⟩
  · rw [advance_readV, readV_writeResultAndFlag_dest hx, BitVec.toNat_sub_of_le hle]
  · rw [advance_readV, readV_writeResultAndFlag_VF, notBorrowFlag_of_le hle, flagByte_true]
  · rw [advance_readV, readV_writeResultAndFlag_dest hx, toNat_sub_add_of_lt hlt]
  · rw [advance_readV, readV_writeResultAndFlag_VF, notBorrowFlag_of_lt hlt, flagByte_false]

theorem flagByte_toNat (f : Bool) : (flagByte f).toNat = f.toNat := by cases f <;> rfl

theorem lowBitFlag_toNat (a : Byte) : (lowBitFlag a).toNat = a.toNat % 2 := by
  simp only [lowBitFlag, BitVec.getLsbD, Nat.toNat_testBit]
  omega

theorem highBitFlag_toNat (a : Byte) : (highBitFlag a).toNat = a.toNat / 128 := by
  have ha := a.isLt
  simp only [highBitFlag, BitVec.getLsbD, Nat.toNat_testBit]
  omega

theorem toNat_ushiftRight_one (a : Byte) : (a >>> 1).toNat = a.toNat / 2 := by
  rw [BitVec.toNat_ushiftRight, Nat.shiftRight_one]

theorem toNat_shiftLeft_one (a : Byte) : (a <<< 1).toNat = a.toNat * 2 % 256 := by
  rw [BitVec.toNat_shiftLeft, Nat.shiftLeft_eq]

theorem exec_shrReg (x : RegIdx) (z : Nibble) (s : State) :
    exec (.shrReg x z) s = .next (advance (writeResultAndFlag s x (readV s x >>> 1) (lowBitFlag (readV s x)))) := rfl

theorem exec_shlReg (x : RegIdx) (z : Nibble) (s : State) :
    exec (.shlReg x z) s = .next (advance (writeResultAndFlag s x (readV s x <<< 1) (highBitFlag (readV s x)))) := rfl

/-- Settles O17: the shifts are arithmetic by 2; the flag is the remainder, or the carry out of bit 7. -/
theorem shiftsMoveVxByOneBit : Obligations.ShiftsMoveVxByOneBit := by
  unfold Obligations.ShiftsMoveVxByOneBit
  intro x z s
  refine ⟨decode_shrReg_word x z, decode_shlReg_word x z,
    ⟨_, exec_shrReg x z s, fun hx => ?_, ?_, rfl, frame_advance_writeResultAndFlag _ _⟩,
    ⟨_, exec_shlReg x z s, fun hx => ?_, ?_, rfl, frame_advance_writeResultAndFlag _ _⟩⟩
  · rw [advance_readV, readV_writeResultAndFlag_dest hx, toNat_ushiftRight_one]
  · rw [advance_readV, readV_writeResultAndFlag_VF, flagByte_toNat, lowBitFlag_toNat]
  · rw [advance_readV, readV_writeResultAndFlag_dest hx, toNat_shiftLeft_one]
  · rw [advance_readV, readV_writeResultAndFlag_VF, flagByte_toNat, highBitFlag_toNat]

/-! ### Random (R135) -/

/-- Where the frame excepts the model's counter of draws, a draw may be counted. -/
theorem FrameExcept.withDraw {regs : RegIdx → Prop} {bytes : Nat → Prop} {parts : List Part} {s t : State}
    (h : FrameExcept regs bytes parts s t) (hp : .draws ∈ parts) :
    FrameExcept regs bytes parts s (countDraw t) :=
  { h with drawsSame := fun hn => absurd hp hn }

/-- A random load changes its destination and the counter of draws only. -/
theorem frame_loadRandom (x : RegIdx) (b : Byte) :
    FrameExcept (fun r => r = x) nothing [.draws] s (advance (writeV (countDraw s) x b)) :=
  (((FrameExcept.refl (regs := fun r => r = x) s).withDraw (List.mem_singleton.2 rfl)).withReg rfl b).withPc _

theorem loadRandom_eq (rnd : Byte) (x : RegIdx) (nn : Byte) (s : State) :
    loadRandom rnd x nn s = .next (advance (writeV (countDraw s) x (rnd &&& nn))) := rfl

theorem exec_rnd (x : RegIdx) (nn : Byte) (s : State) :
    exec (.rnd x nn) s = loadRandom (Config.randomByte s.draws) x nn s := rfl

/-- Settles O18: one write of the masked byte, whose bits outside the mask are 0 whatever the draw. -/
theorem randomIsMaskedByImmediate : Obligations.RandomIsMaskedByImmediate := by
  unfold Obligations.RandomIsMaskedByImmediate
  intro x nn s
  have hread := readV_advance_writeV (s := countDraw s) x (Config.randomByte s.draws &&& nn)
  refine ⟨decode_rnd_word x nn, _, (exec_rnd x nn s).trans (loadRandom_eq _ x nn s), hread, fun k _ hk => ?_, rfl,
    rfl, frame_loadRandom x _⟩
  rw [hread, BitVec.getLsbD_and, hk, Bool.and_false]

end Sys2Proof.Machine

/-! ## Proofs: index addition, register dump and load (42_memory_index.md R141, R144, R145, R147) -/

namespace Sys2Proof.Machine

variable {s : State}

theorem exec_addI (x : RegIdx) (s : State) :
    exec (.addI x) s = .next (advance (setI (s.i + zextByte (readV s x)) s)) := rfl

/-- Settles O21: one index write of the 16-bit sum. -/
theorem addIndexWrapsAtSixteenBits : Obligations.AddIndexWrapsAtSixteenBits := by
  unfold Obligations.AddIndexWrapsAtSixteenBits
  intro x s
  refine ⟨decode_addI_word x, _, exec_addI x s, ?_, rfl, frame_advance_setI _⟩
  rw [advance_i, setI_i, BitVec.toNat_add, zextByte_toNat]

/-! ### Dump -/

theorem exec_ldMemVx_of_in (x : RegIdx) (h : inMemory s.i (x.toNat + 1)) :
    exec (.ldMemVx x) s = .next (advance (storeBytes (effAddr s 0) (firstRegs s x) s)) := by
  change execLdMemVx x s = _
  rw [execLdMemVx, if_pos h]

theorem exec_ldMemVx_of_out (x : RegIdx) (h : ¬ inMemory s.i (x.toNat + 1)) :
    exec (.ldMemVx x) s = raise .outOfBounds s := by
  change execLdMemVx x s = _
  rw [execLdMemVx, if_neg h]

/-- Every dumped register is read back at its address. -/
theorem read_firstRegs_effAddr {x r : RegIdx} (h : r.toNat ≤ x.toNat) :
    Memory.read (storeBytes (effAddr s 0) (firstRegs s x) s).mem (effAddr s r.toNat) = readV s r := by
  have hlen : r.toNat < (firstRegs s x).length := by rw [firstRegs_length]; omega
  rw [read_storeBytes_effAddr hlen, firstRegs_getElem, BitVec.ofNat_toNat, BitVec.setWidth_eq]

theorem frame_dump (x : RegIdx) : FrameExcept nothing (bytesAt (effAddr s 0) (x.toNat + 1)) [] s
    (advance (storeBytes (effAddr s 0) (firstRegs s x) s)) := by
  rw [← firstRegs_length s x]
  exact frame_advance_storeBytes _ _

/-- Settles O24: by cases on the range check, which is made before the first byte is stored. -/
theorem registerDumpStoresV0ToVx : Obligations.RegisterDumpStoresV0ToVx := by
  unfold Obligations.RegisterDumpStoresV0ToVx
  intro x s
  exact ⟨decode_ldMemVx_word x,
    fun hin => ⟨_, exec_ldMemVx_of_in x (inMemory_of_le hin), fun _ => read_firstRegs_effAddr, rfl, frame_dump x⟩,
    fun hout => exec_ldMemVx_of_out x (not_inMemory_of_lt hout)⟩

/-! ### Load -/

theorem exec_ldVxMem_of_in (x : RegIdx) (h : inMemory s.i (x.toNat + 1)) :
    exec (.ldVxMem x) s = .next (advance (loadRegs (effAddr s 0) s (x.toNat + 1))) := by
  change execLdVxMem x s = _
  rw [execLdVxMem, if_pos h]

theorem exec_ldVxMem_of_out (x : RegIdx) (h : ¬ inMemory s.i (x.toNat + 1)) :
    exec (.ldVxMem x) s = raise .outOfBounds s := by
  change execLdVxMem x s = _
  rw [execLdVxMem, if_neg h]

/-- Where the frame excepts the registers of a load, they may be loaded. -/
theorem FrameExcept.withLoad {regs : RegIdx → Prop} {bytes : Nat → Prop} {parts : List Part} {s t : State}
    (h : FrameExcept regs bytes parts s t) (base : Nat) {k : Nat} (hk : k ≤ 16) (hr : ∀ r, r.toNat < k → regs r) :
    FrameExcept regs bytes parts s (loadRegs base t k) := by
  induction k with
  | zero => exact h
  | succ k ih =>
    have hlast : (BitVec.ofNat 4 k).toNat < k + 1 := by simp; omega
    exact (ih (by omega) fun r hlt => hr r (by omega)).withReg (hr _ hlast) _

theorem frame_load (x : RegIdx) : FrameExcept (fun r => r.toNat ≤ x.toNat) nothing [] s
    (advance (loadRegs (effAddr s 0) s (x.toNat + 1))) :=
  ((FrameExcept.refl s).withLoad _ x.isLt fun _ => Nat.le_of_lt_succ).withPc _

/-- Settles O25: by cases on the range check, which is made before the first register is loaded. -/
theorem registerLoadFillsV0ToVx : Obligations.RegisterLoadFillsV0ToVx := by
  unfold Obligations.RegisterLoadFillsV0ToVx
  intro x s
  refine ⟨decode_ldVxMem_word x, fun hin => ⟨_, exec_ldVxMem_of_in x (inMemory_of_le hin), fun r hr => ?_, ?_,
    frame_load x⟩, fun hout => exec_ldVxMem_of_out x (not_inMemory_of_lt hout)⟩
  · rw [advance_readV, readV_loadRegs s _ r x.isLt, if_pos (Nat.lt_succ_of_le hr)]
    rfl
  · rw [advance_pc, loadRegs_pc]

/-! ### Round trips (R147) -/

/-- Settles O26: the load reads back what the dump stored at the same `I`; the three digits are the decimal ones. -/
theorem dumpLoadAndBcdRoundTrips : Obligations.DumpLoadAndBcdRoundTrips := by
  unfold Obligations.DumpLoadAndBcdRoundTrips
  refine ⟨fun x s hin => ?_, fun x s hin => ?_⟩
  · obtain ⟨-, hdump, -⟩ := registerDumpStoresV0ToVx x s
    obtain ⟨t, hst, hmem, -, hframe⟩ := hdump hin
    have hi : t.i = s.i := hframe.indexSame (by simp)
    obtain ⟨-, hload, -⟩ := registerLoadFillsV0ToVx x t
    obtain ⟨u, htu, hregs, -, hframe'⟩ := hload (hi ▸ hin)
    have haddr : ∀ k, effAddr t k = effAddr s k := fun k => by rw [effAddr, hi, effAddr]
    refine ⟨t, u, hst, htu, fun r => ?_, (hframe'.indexSame (by simp)).trans hi, fun r hr => ?_⟩
    · by_cases hr : r.toNat ≤ x.toNat
      · rw [hregs r hr, haddr, hmem r hr]
      · rw [hframe'.regsSame r hr, hframe.regsSame r id]
    · rw [hframe'.memSame _ id, hmem r hr]
  · obtain ⟨-, hbcd, -⟩ := bcdStoresThreeDigits x s
    obtain ⟨t, hst, h100, h10, h1, -⟩ := hbcd hin
    refine ⟨t, hst, ?_⟩
    rw [h100, h10, h1]
    omega

end Sys2Proof.Machine

/-! ## Proofs: what every instruction can do

`execWith_answers` says it once: an instruction raises the fault `raisedFault` names and changes nothing else, or it
completes and changes only what its rule names. The statements about all instructions are read off from it. -/

namespace Sys2Proof.Machine

/-- The fault an instruction raises in a state (60_exceptions.md R190 to R192). -/
def raisedFault (i : Instr) (s : State) : Option Fault :=
  match i with
  | .call _ => if s.sp.val = 16 then some .stackOverflow else none
  | .ret => if s.sp.val = 0 then some .stackUnderflow else none
  | .drw _ _ n => if inMemory s.i n.toNat then none else some .outOfBounds
  | .ldB _ => if inMemory s.i 3 then none else some .outOfBounds
  | .ldMemVx x => if inMemory s.i (x.toNat + 1) then none else some .outOfBounds
  | .ldVxMem x => if inMemory s.i (x.toNat + 1) then none else some .outOfBounds
  | _ => none

/-- The bytes of memory an instruction stores to: `Fx33` and `Fx55` only. -/
def storesTo (i : Instr) (s : State) : Nat → Prop :=
  match i with
  | .ldB _ => bytesAt (effAddr s 0) 3
  | .ldMemVx x => bytesAt (effAddr s 0) (x.toNat + 1)
  | _ => nothing

/-- The parts of the state an instruction writes. -/
def partsWritten : Instr → List Part
  | .cls | .drw _ _ _ => [.screen]
  | .ret | .call _ => [.stack]
  | .ldI _ | .addI _ | .ldF _ => [.index]
  | .rnd _ _ => [.draws]
  | .ldVxK _ => [.waiting]
  | .ldDTVx _ => [.delay]
  | .ldSTVx _ => [.sound]
  | _ => []

/-- The values `PC` can have after an instruction has completed (40_control_flow.md R100 to R110). -/
def NextPc (i : Instr) (s : State) (w : Word) : Prop :=
  match i with
  | .jp nnn | .call nnn => w = zextAddr nnn
  | .jpV0 nnn => w = zextByte (readV s 0#4) + zextAddr nnn
  | .ret => ∃ h : 0 < s.sp.val, w = s.stack[s.sp.val - 1] + 2#16
  | .seImm _ _ | .sneImm _ _ | .seReg _ _ _ | .sneReg _ _ _ | .skp _ | .sknp _ =>
    w = s.pc + 4#16 ∨ w = s.pc + 2#16
  | .ldVxK _ => w = s.pc
  | _ => w = s.pc + 2#16

/-- An instruction that completes changes only what its rule names, keeps memory's canonical form and, from an address
that can be fetched at, leaves live stack cells of which each holds such an address. -/
structure Completes (i : Instr) (s t : State) : Prop where
  frame : FrameExcept (fun r => mayWrite i r = true) (storesTo i s) (partsWritten i) s t
  nextPc : NextPc i s t.pc
  memWf : Memory.wf s.mem → Memory.wf t.mem
  liveCells : s.pc.toNat ≤ 4094 → LiveCellsFetchable s → LiveCellsFetchable t

namespace Completes

variable {i : Instr} {s : State} {x : RegIdx} {b : Byte} {f c : Bool} {w : Word}

theorem writeReg (hx : mayWrite i x = true) (hpc : NextPc i s (s.pc + 2#16)) :
    Completes i s (advance (writeV s x b)) :=
  ⟨((FrameExcept.refl s).withReg hx b).withPc _, hpc, id, fun _ h => h⟩

theorem writeRegAndFlag (hx : mayWrite i x = true) (hVF : mayWrite i VF = true)
    (hpc : NextPc i s (s.pc + 2#16)) :
    Completes i s (advance (writeResultAndFlag s x b f)) :=
  ⟨(((FrameExcept.refl s).withReg hx b).withReg hVF (flagByte f)).withPc _, hpc, id, fun _ h => h⟩

theorem skip (h4 : NextPc i s (s.pc + 4#16)) (h2 : NextPc i s (s.pc + 2#16)) :
    Completes i s (skipIf c s) :=
  ⟨(FrameExcept.refl s).withPc _, by cases c <;> assumption, id, fun _ h => h⟩

theorem jump (hpc : NextPc i s w) : Completes i s (jumpTo w s) :=
  ⟨(FrameExcept.refl s).withPc _, hpc, id, fun _ h => h⟩

theorem writeIndex (hi : .index ∈ partsWritten i) (hpc : NextPc i s (s.pc + 2#16)) :
    Completes i s (advance (setI w s)) :=
  ⟨((FrameExcept.refl s).withIndex hi w).withPc _, hpc, id, fun _ h => h⟩

theorem store {bs : List Byte} (hb : ∀ q, bytesAt (effAddr s 0) bs.length q → storesTo i s q)
    (hin : inMemory s.i bs.length) (hpc : NextPc i s (s.pc + 2#16)) :
    Completes i s (advance (storeBytes (effAddr s 0) bs s)) :=
  ⟨((FrameExcept.refl s).withStore hb).withPc _, hpc,
    fun h => Memory.wf_writeBytes bs h (hin.imp_left List.length_eq_zero_iff.1),
    fun _ h => h⟩

end Completes

/-! ### The six instructions that can fault -/

section

variable {s : State}

theorem exec_ldB_of_in (x : RegIdx) (h : inMemory s.i 3) :
    exec (.ldB x) s = .next (advance (storeBytes (effAddr s 0) (bcdDigits (readV s x)) s)) := by
  change execLdB x s = _
  rw [execLdB, if_pos h]

theorem exec_ldB_of_out (x : RegIdx) (h : ¬ inMemory s.i 3) : exec (.ldB x) s = raise .outOfBounds s := by
  change execLdB x s = _
  rw [execLdB, if_neg h]

/-- The framebuffer and the collision bit of a draw from a state (R151). -/
def drawn (x y : RegIdx) (n : Nibble) (s : State) : Canvas :=
  drawRows s.mem (effAddr s 0) (readV s x).toNat (readV s y).toNat (s.fb, false) n.toNat

theorem exec_drw_of_in (x y : RegIdx) {n : Nibble} (h : inMemory s.i n.toNat) : exec (.drw x y n) s =
    .next (advance (writeV (setScreen (drawn x y n s).1 s) VF (flagByte (drawn x y n s).2))) := by
  change execDrw x y n s = _
  rw [execDrw, if_pos h]
  rfl

theorem exec_drw_of_out (x y : RegIdx) {n : Nibble} (h : ¬ inMemory s.i n.toNat) :
    exec (.drw x y n) s = raise .outOfBounds s := by
  change execDrw x y n s = _
  rw [execDrw, if_neg h]

/-- A return with a live cell goes on to the word after the popped address and keeps every cell. -/
theorem exec_ret_completes (h : 0 < s.sp.val) :
    ∃ t, exec .ret s = .next t ∧ t.stack = s.stack ∧ Completes .ret s t := by
  refine ⟨_, exec_ret_of_pop ((pop_eq_some s).2 ⟨h, rfl, rfl⟩), rfl, ?_, ⟨h, rfl⟩, id, ?_⟩
  · exact ((FrameExcept.refl s).withStack (List.mem_singleton.2 rfl) s.stack _).withPc _
  · exact fun _ hcells k hk hlive => hcells k hk (lt_of_lt_of_le hlive (Nat.sub_le _ _))

/-- A call below 16 live cells goes on to its target; the new live cell holds the address of the call. -/
theorem exec_call_completes (nnn : Addr12) (h : s.sp.val < 16) :
    ∃ t, exec (.call nnn) s = .next t ∧ Completes (.call nnn) s t := by
  refine ⟨_, exec_call_of_push nnn ((push_eq_some s).2 ⟨h, rfl⟩), ?_, rfl, id, fun hpc hcells k hk hlive => ?_⟩
  · exact ((FrameExcept.refl s).withStack (List.mem_singleton.2 rfl) _ _).withPc _
  · rw [jumpTo_stack, Vector.getElem_set]
    split_ifs with htop
    · exact hpc
    · have hlive : k < s.sp.val + 1 := hlive
      exact hcells k hk (by omega)

end

/-! ### Every instruction -/

/-- What an instruction answers: the fault `raisedFault` names with no other effect, or its completion. -/
def Answers (rnd : Byte) (i : Instr) (s : State) : Prop :=
  (∃ f, raisedFault i s = some f ∧ execWith rnd i s = raise f s) ∨
  (raisedFault i s = none ∧ ∃ t, execWith rnd i s = .next t ∧ Completes i s t)

section

variable {rnd : Byte} {i : Instr} {s : State}

theorem Answers.raises {f : Fault} (hf : raisedFault i s = some f) (h : execWith rnd i s = raise f s) :
    Answers rnd i s := Or.inl ⟨f, hf, h⟩

theorem Answers.completes {t : State} (hf : raisedFault i s = none) (h : execWith rnd i s = .next t)
    (hc : Completes i s t) : Answers rnd i s := Or.inr ⟨hf, t, h, hc⟩

theorem answers_ret : Answers rnd .ret s := by
  by_cases h : s.sp.val = 0
  · exact .raises (if_pos h) (exec_ret_of_empty h)
  · obtain ⟨t, hexec, -, hc⟩ := exec_ret_completes (Nat.pos_of_ne_zero h)
    exact .completes (if_neg h) hexec hc

theorem answers_call (nnn : Addr12) : Answers rnd (.call nnn) s := by
  by_cases h : s.sp.val = 16
  · exact .raises (if_pos h) (exec_call_of_full nnn h)
  · obtain ⟨t, hexec, hc⟩ := exec_call_completes (s := s) nnn (by omega)
    exact .completes (if_neg h) hexec hc

theorem answers_drw (x y : RegIdx) (n : Nibble) : Answers rnd (.drw x y n) s := by
  by_cases h : inMemory s.i n.toNat
  · exact .completes (if_pos h) (exec_drw_of_in x y h)
      ⟨(((FrameExcept.refl s).withScreen (List.mem_singleton.2 rfl) _).withReg (by rfl) _).withPc _, rfl, id,
        fun _ h => h⟩
  · exact .raises (if_neg h) (exec_drw_of_out x y h)

theorem answers_ldB (x : RegIdx) : Answers rnd (.ldB x) s := by
  by_cases h : inMemory s.i 3
  · exact .completes (if_pos h) (exec_ldB_of_in x h) (.store (fun _ hq => hq) h rfl)
  · exact .raises (if_neg h) (exec_ldB_of_out x h)

theorem answers_ldMemVx (x : RegIdx) : Answers rnd (.ldMemVx x) s := by
  by_cases h : inMemory s.i (x.toNat + 1)
  · refine .completes (if_pos h) (exec_ldMemVx_of_in x h) (.store (fun _ hq => ?_) ?_ rfl)
    · rwa [firstRegs_length] at hq
    · rwa [firstRegs_length]
  · exact .raises (if_neg h) (exec_ldMemVx_of_out x h)

theorem answers_ldVxMem (x : RegIdx) : Answers rnd (.ldVxMem x) s := by
  by_cases h : inMemory s.i (x.toNat + 1)
  · refine .completes (if_pos h) (exec_ldVxMem_of_in x h) ⟨?_, ?_, fun hm => ?_, fun _ hcells => ?_⟩
    · refine ((FrameExcept.refl s).withLoad _ x.isLt fun r hr => ?_).withPc _
      exact decide_eq_true (Nat.le_of_lt_succ hr)
    · rw [advance_pc, loadRegs_pc]
      rfl
    · rwa [advance_mem, loadRegs_mem]
    · rw [loadRegs_eq]
      exact hcells
  · exact .raises (if_neg h) (exec_ldVxMem_of_out x h)

end

/-- Everything an instruction can do. -/
theorem execWith_answers (rnd : Byte) (i : Instr) (s : State) : Answers rnd i s := by
  cases i with
  | cls =>
    refine .completes rfl rfl ⟨?_, rfl, id, fun _ h => h⟩
    exact ((FrameExcept.refl s).withScreen (List.mem_singleton.2 rfl) _).withPc _
  | ret => exact answers_ret
  | jp nnn => exact .completes rfl rfl (.jump rfl)
  | call nnn => exact answers_call nnn
  | seImm x nn => exact .completes rfl rfl (.skip (Or.inl rfl) (Or.inr rfl))
  | sneImm x nn => exact .completes rfl rfl (.skip (Or.inl rfl) (Or.inr rfl))
  | seReg x y z => exact .completes rfl rfl (.skip (Or.inl rfl) (Or.inr rfl))
  | ldImm x nn => exact .completes rfl rfl (.writeReg (by simp [mayWrite]) rfl)
  | addImm x nn => exact .completes rfl rfl (.writeReg (by simp [mayWrite]) rfl)
  | ldReg x y => exact .completes rfl rfl (.writeReg (by simp [mayWrite]) rfl)
  | orReg x y => exact .completes rfl rfl (.writeReg (by simp [mayWrite]) rfl)
  | andReg x y => exact .completes rfl rfl (.writeReg (by simp [mayWrite]) rfl)
  | xorReg x y => exact .completes rfl rfl (.writeReg (by simp [mayWrite]) rfl)
  | addReg x y => exact .completes rfl rfl (.writeRegAndFlag (by simp [mayWrite]) (by simp [mayWrite]) rfl)
  | subReg x y => exact .completes rfl rfl (.writeRegAndFlag (by simp [mayWrite]) (by simp [mayWrite]) rfl)
  | shrReg x z => exact .completes rfl rfl (.writeRegAndFlag (by simp [mayWrite]) (by simp [mayWrite]) rfl)
  | subnReg x y => exact .completes rfl rfl (.writeRegAndFlag (by simp [mayWrite]) (by simp [mayWrite]) rfl)
  | shlReg x z => exact .completes rfl rfl (.writeRegAndFlag (by simp [mayWrite]) (by simp [mayWrite]) rfl)
  | sneReg x y z => exact .completes rfl rfl (.skip (Or.inl rfl) (Or.inr rfl))
  | ldI nnn => exact .completes rfl rfl (.writeIndex (List.mem_singleton.2 rfl) rfl)
  | jpV0 nnn => exact .completes rfl rfl (.jump rfl)
  | rnd x nn =>
    refine .completes rfl rfl ⟨?_, rfl, id, fun _ h => h⟩
    exact (((FrameExcept.refl s).withDraw (List.mem_singleton.2 rfl)).withReg (beq_self_eq_true x) _).withPc _
  | drw x y n => exact answers_drw x y n
  | skp x => exact .completes rfl rfl (.skip (Or.inl rfl) (Or.inr rfl))
  | sknp x => exact .completes rfl rfl (.skip (Or.inl rfl) (Or.inr rfl))
  | ldVxDT x => exact .completes rfl rfl (.writeReg (by simp [mayWrite]) rfl)
  | ldVxK x =>
    refine .completes rfl rfl ⟨?_, rfl, id, fun _ h => h⟩
    exact (FrameExcept.refl s).withWaiting (List.mem_singleton.2 rfl) _ _
  | ldDTVx x =>
    refine .completes rfl rfl ⟨?_, rfl, id, fun _ h => h⟩
    exact ((FrameExcept.refl s).withDelay (List.mem_singleton.2 rfl) _).withPc _
  | ldSTVx x =>
    refine .completes rfl rfl ⟨?_, rfl, id, fun _ h => h⟩
    exact ((FrameExcept.refl s).withSound (List.mem_singleton.2 rfl) _).withPc _
  | addI x => exact .completes rfl rfl (.writeIndex (List.mem_singleton.2 rfl) rfl)
  | ldF x => exact .completes rfl rfl (.writeIndex (List.mem_singleton.2 rfl) rfl)
  | ldB x => exact answers_ldB x
  | ldMemVx x => exact answers_ldMemVx x
  | ldVxMem x => exact answers_ldVxMem x
  | nop w => exact .completes rfl rfl ⟨(FrameExcept.refl s).withPc _, rfl, id, fun _ h => h⟩

end Sys2Proof.Machine

/-! ### What follows for every instruction -/

namespace Sys2Proof.Machine

section

variable {regs : RegIdx → Prop} {bytes : Nat → Prop} {parts parts' : List Part} {s t : State}

theorem FrameExcept.mono (h : FrameExcept regs bytes parts s t) (hp : parts ⊆ parts') :
    FrameExcept regs bytes parts' s t where
  regsSame := h.regsSame
  memSame := h.memSame
  indexSame hn := h.indexSame fun hm => hn (hp hm)
  stackSame hn := h.stackSame fun hm => hn (hp hm)
  delaySame hn := h.delaySame fun hm => hn (hp hm)
  soundSame hn := h.soundSame fun hm => hn (hp hm)
  keypadSame hn := h.keypadSame fun hm => hn (hp hm)
  screenSame hn := h.screenSame fun hm => hn (hp hm)
  waitingSame hn := h.waitingSame fun hm => hn (hp hm)
  faultSame hn := h.faultSame fun hm => hn (hp hm)
  drawsSame hn := h.drawsSame fun hm => hn (hp hm)

/-- Where the frame excepts the latch, any fault may be latched. -/
theorem FrameExcept.withFault (h : FrameExcept regs bytes parts s t) (hp : .faultLatch ∈ parts) (f : Option Fault) :
    FrameExcept regs bytes parts s { t with fault := f } :=
  { h with faultSame := fun hn => absurd hp hn }

end

variable {rnd : Byte} {i : Instr} {s t : State}

/-- No instruction stops the model. -/
theorem execWith_isNext (rnd : Byte) (i : Instr) (s : State) : ∃ t, execWith rnd i s = .next t := by
  rcases execWith_answers rnd i s with ⟨f, -, h⟩ | ⟨-, t, h, -⟩
  · exact ⟨_, h⟩
  · exact ⟨t, h⟩

/-- The next state of an instruction: it raised its fault, or it completed. -/
theorem execWith_next (h : execWith rnd i s = .next t) :
    (∃ f, raisedFault i s = some f ∧ t = { s with fault := some f }) ∨
    (raisedFault i s = none ∧ Completes i s t) := by
  rcases execWith_answers rnd i s with ⟨f, hf, h'⟩ | ⟨hf, t', h', hc⟩
  · exact Or.inl ⟨f, hf, Host.Outcome.next.inj (h.symm.trans h')⟩
  · rw [Host.Outcome.next.inj (h.symm.trans h')]
    exact Or.inr ⟨hf, hc⟩

theorem exec_next (h : exec i s = .next t) :
    (∃ f, raisedFault i s = some f ∧ t = { s with fault := some f }) ∨
    (raisedFault i s = none ∧ Completes i s t) :=
  execWith_next ((execWith_free s i).trans h)

/-- The frame of every instruction, whether it faults or completes. -/
theorem frame_of_exec (h : exec i s = .next t) :
    FrameExcept (fun r => mayWrite i r = true) (storesTo i s) (.faultLatch :: partsWritten i) s t := by
  rcases exec_next h with ⟨f, -, rfl⟩ | ⟨-, hc⟩
  · exact (FrameExcept.refl s).withFault List.mem_cons_self _
  · exact hc.frame.mono (List.subset_cons_self _ _)

theorem faultLatch_not_mem_partsWritten (i : Instr) : .faultLatch ∉ partsWritten i := by
  cases i <;> simp [partsWritten]

theorem Completes.fault_eq (hc : Completes i s t) : t.fault = s.fault :=
  hc.frame.faultSame (faultLatch_not_mem_partsWritten i)

/-- From an unfaulted state, the fault latched after an instruction is the one it raised. -/
theorem fault_of_execWith (hs : s.fault = none) (h : execWith rnd i s = .next t) : t.fault = raisedFault i s := by
  rcases execWith_next h with ⟨f, hf, rfl⟩ | ⟨hf, hc⟩
  · exact hf.symm
  · rw [hc.fault_eq, hs, hf]

theorem fault_of_exec (hs : s.fault = none) (h : exec i s = .next t) : t.fault = raisedFault i s :=
  fault_of_execWith hs ((execWith_free s i).trans h)

/-- From an unfaulted state, an instruction completes iff it raises no fault. -/
theorem completed_exec (hs : s.fault = none) : completed (exec i s) = (raisedFault i s).isNone := by
  obtain ⟨t, ht⟩ := execWith_isNext (Config.randomByte s.draws) i s
  rw [← execWith_free, ht, ← fault_of_execWith hs ht]
  rfl

/-- Settles O41: an instruction that completes latches no fault, so the one that latched it has raised it. -/
theorem faultsArePrecise : Obligations.FaultsArePrecise := by
  unfold Obligations.FaultsArePrecise
  intro i s t hs h hfault
  rcases exec_next h with ⟨f, -, rfl⟩ | ⟨-, hc⟩
  · rfl
  · exact absurd (hc.fault_eq.trans hs) hfault

/-! ### The causes of the faults (60_exceptions.md R190 to R192) -/

theorem raisedFault_eq_stackOverflow :
    raisedFault i s = some .stackOverflow ↔ (∃ nnn, i = .call nnn) ∧ s.sp.val = 16 := by
  cases i <;> simp [raisedFault]

theorem raisedFault_eq_stackUnderflow : raisedFault i s = some .stackUnderflow ↔ i = .ret ∧ s.sp.val = 0 := by
  cases i <;> simp [raisedFault]

theorem not_inMemory_iff {base : Word} {k : Nat} : ¬ inMemory base k ↔ 0 < k ∧ 4095 < base.toNat + k - 1 := by
  rw [inMemory_iff]
  omega

theorem raisedFault_eq_outOfBounds : raisedFault i s = some .outOfBounds ↔
    (∃ x y n, i = .drw x y n ∧ 0 < n.toNat ∧ 4095 < s.i.toNat + n.toNat - 1) ∨
    (∃ x, i = .ldB x ∧ 4095 < s.i.toNat + 2) ∨
    (∃ x, (i = .ldMemVx x ∨ i = .ldVxMem x) ∧ 4095 < s.i.toNat + x.toNat) := by
  cases i <;> simp [raisedFault, -not_or, not_inMemory_iff]

/-- Settles O42: the latched fault is the raised one, whose causes are read off instruction by instruction. -/
theorem eachFaultHasItsCause : Obligations.EachFaultHasItsCause := by
  unfold Obligations.EachFaultHasItsCause
  intro i s t hs h
  rw [fault_of_exec hs h]
  exact ⟨raisedFault_eq_stackOverflow, raisedFault_eq_stackUnderflow, raisedFault_eq_outOfBounds⟩

/-! ### Who writes what (10_state.md R21 to R42) -/

/-- Settles O46: the frame of every instruction, for the registers. -/
theorem registersChangeOnlyAsNamed : Obligations.RegistersChangeOnlyAsNamed := by
  unfold Obligations.RegistersChangeOnlyAsNamed
  intro i s t r h hr
  exact (frame_of_exec h).regsSame r (by simp [hr])

/-- Every byte of an access that passes the range check has an address below 4096. -/
theorem le_of_bytesAt {k a : Nat} (hin : inMemory s.i k) (ha : bytesAt (effAddr s 0) k a) : a ≤ 4095 := by
  obtain ⟨hlo, hhi⟩ := ha
  rw [inMemory_iff] at hin
  simp only [effAddr] at hlo hhi
  omega

/-- What an instruction that raises no fault stores to, with the range check that has passed. -/
theorem storesTo_cases {a : Nat} (hf : raisedFault i s = none) (ha : storesTo i s a) :
    (∃ x, i = .ldB x ∧ inMemory s.i 3 ∧ bytesAt (effAddr s 0) 3 a) ∨
    (∃ x, i = .ldMemVx x ∧ inMemory s.i (x.toNat + 1) ∧ bytesAt (effAddr s 0) (x.toNat + 1) a) := by
  unfold storesTo at ha
  split at ha
  case h_1 x => exact Or.inl ⟨x, rfl, by_contra fun hn => by simp [raisedFault, hn] at hf, ha⟩
  case h_2 x => exact Or.inr ⟨x, rfl, by_contra fun hn => by simp [raisedFault, hn] at hf, ha⟩
  case h_3 => exact ha.elim

/-- Settles O47: what an instruction stores to is in its range, and a range beyond memory raises a fault instead. -/
theorem onlyBcdAndDumpWriteMemory : Obligations.OnlyBcdAndDumpWriteMemory := by
  unfold Obligations.OnlyBcdAndDumpWriteMemory
  intro i s t a h hne
  rcases exec_next h with ⟨f, -, rfl⟩ | ⟨hf, hc⟩
  · exact absurd rfl hne
  · rcases storesTo_cases hf (by_contra fun ha => hne (hc.frame.memSame a ha)) with
      ⟨x, hi, hin, ha⟩ | ⟨x, hi, hin, ha⟩
    · exact ⟨le_of_bytesAt hin ha, Or.inl ⟨x, hi, ha⟩⟩
    · exact ⟨le_of_bytesAt hin ha, Or.inr ⟨x, hi, ha⟩⟩

theorem index_mem_partsWritten :
    .index ∈ partsWritten i ↔ (∃ nnn, i = .ldI nnn) ∨ (∃ x, i = .addI x) ∨ ∃ x, i = .ldF x := by
  cases i <;> simp [partsWritten]

theorem stack_mem_partsWritten : .stack ∈ partsWritten i ↔ (∃ nnn, i = .call nnn) ∨ i = .ret := by
  cases i <;> simp [partsWritten]

theorem delay_mem_partsWritten : .delay ∈ partsWritten i ↔ ∃ x, i = .ldDTVx x := by
  cases i <;> simp [partsWritten]

theorem sound_mem_partsWritten : .sound ∈ partsWritten i ↔ ∃ x, i = .ldSTVx x := by
  cases i <;> simp [partsWritten]

theorem keypad_not_mem_partsWritten (i : Instr) : .keypad ∉ partsWritten i := by
  cases i <;> simp [partsWritten]

theorem screen_mem_partsWritten : .screen ∈ partsWritten i ↔ drawsScreen i = true := by
  cases i <;> simp [partsWritten, drawsScreen]

theorem waiting_mem_partsWritten : .waiting ∈ partsWritten i ↔ ∃ x, i = .ldVxK x := by
  cases i <;> simp [partsWritten]

theorem draws_mem_partsWritten : .draws ∈ partsWritten i ↔ ∃ x nn, i = .rnd x nn := by
  cases i <;> simp [partsWritten]

/-- A return moves `SP` only. -/
theorem exec_ret_stack (h : exec .ret s = .next t) : t.stack = s.stack := by
  by_cases hsp : s.sp.val = 0
  · rw [← Host.Outcome.next.inj ((exec_ret_of_empty hsp).symm.trans h)]
  · obtain ⟨u, hu, hstack, -⟩ := exec_ret_completes (Nat.pos_of_ne_zero hsp)
    rw [← Host.Outcome.next.inj (hu.symm.trans h), hstack]

/-- A part that has changed is one of those the instruction writes. -/
theorem mem_partsWritten_of_changed {p : Part} {Same : Prop} (hp : p ≠ .faultLatch)
    (hframe : p ∉ .faultLatch :: partsWritten i → Same) (hne : ¬ Same) : p ∈ partsWritten i := by
  by_contra hn
  exact hne (hframe (List.not_mem_cons_of_ne_of_not_mem hp hn))

/-- Settles O49: the frame of every instruction, part by part; that `RET` keeps the cells is a lemma of its own. -/
theorem specialStateChangesOnlyAsNamed : Obligations.SpecialStateChangesOnlyAsNamed := by
  unfold Obligations.SpecialStateChangesOnlyAsNamed
  intro i s t h
  have hframe := frame_of_exec h
  refine ⟨fun hne => ?_, fun hne => ?_, fun hne => ?_, fun hne => ?_, fun hne => ?_, ?_, fun hne => ?_,
    fun hne => ?_⟩
  · exact index_mem_partsWritten.1 (mem_partsWritten_of_changed (by decide) hframe.indexSame hne)
  · exact stack_mem_partsWritten.1 (mem_partsWritten_of_changed (by decide) hframe.stackSame fun hs => hne hs.1)
  · rcases stack_mem_partsWritten.1
      (mem_partsWritten_of_changed (by decide) hframe.stackSame fun hs => hne hs.2) with hcall | rfl
    · exact hcall
    · exact absurd (exec_ret_stack h) hne
  · exact delay_mem_partsWritten.1 (mem_partsWritten_of_changed (by decide) hframe.delaySame hne)
  · exact sound_mem_partsWritten.1 (mem_partsWritten_of_changed (by decide) hframe.soundSame hne)
  · exact hframe.keypadSame (List.not_mem_cons_of_ne_of_not_mem (by decide) (keypad_not_mem_partsWritten i))
  · refine waiting_mem_partsWritten.1 (mem_partsWritten_of_changed (by decide) hframe.waitingSame ?_)
    rintro ⟨hwait, hwaitX⟩
    exact hne.elim (absurd hwait) (absurd hwaitX)
  · exact draws_mem_partsWritten.1 (mem_partsWritten_of_changed (by decide) hframe.drawsSame hne)

end Sys2Proof.Machine

/-! ## Proofs: the step event (45_cycle_and_host_events.md R171, R172) -/

namespace Sys2Proof.Machine

variable {rnd : Byte} {s t : State} {w : Word}

/-! ### What a step does -/

theorem stepWith_of_not_running (rnd : Byte) (h : ¬ Running s) : stepWith rnd s = .next s := by
  rcases stepWith_cases s rnd with ⟨-, hs⟩ | ⟨-, -, hs⟩ | ⟨hr, -⟩ | ⟨hr, -⟩
  · exact hs
  · exact hs
  · exact absurd hr h
  · exact absurd hr h

theorem stepWith_of_fetch (rnd : Byte) (hr : Running s) (hf : fetch s = some w) :
    stepWith rnd s = execWith rnd (decode w) s := by
  obtain ⟨hfault, hwait⟩ := hr
  simp [stepWith, hfault, hwait, hf]

theorem stepWith_of_no_fetch (rnd : Byte) (hr : Running s) (hf : fetch s = none) :
    stepWith rnd s = .next { s with fault := some .outOfBounds } := by
  obtain ⟨hfault, hwait⟩ := hr
  simp [stepWith, hfault, hwait, hf, raise]

theorem step_of_fetch (hr : Running s) (hf : fetch s = some w) : step s = exec (decode w) s :=
  (stepWith_of_fetch _ hr hf).trans (execWith_free s _)

/-- Settles O39: the fetch takes the word of the two bytes, and the free value is the random input. -/
theorem stepRunsTheDecodedInstruction : Obligations.StepRunsTheDecodedInstruction := by
  unfold Obligations.StepRunsTheDecodedInstruction
  intro s i hr hpc _ hdec
  rw [step_of_fetch hr (fetch_eq_some s hpc), ← hdec]
  rfl

/-- Settles O19: only a fetched `Cxnn` reads the random input, and it masks whatever it reads. -/
theorem randomInputReachesOnlyRnd : Obligations.RandomInputReachesOnlyRnd := by
  unfold Obligations.RandomInputReachesOnlyRnd
  refine ⟨fun rnd rnd' s hne => ?_, fun rnd s x nn hr hf => ?_⟩
  · by_cases hr : Running s
    · cases hf : fetch s with
      | none => rw [stepWith_of_no_fetch rnd hr hf, stepWith_of_no_fetch rnd' hr hf]
      | some w =>
        have hnot : ∀ x nn, decode w ≠ .rnd x nn := fun x nn => hne w x nn hf
        rw [stepWith_of_fetch rnd hr hf, stepWith_of_fetch rnd' hr hf, execWith_of_ne_rnd s rnd hnot,
          execWith_of_ne_rnd s rnd' hnot]
    · rw [stepWith_of_not_running rnd hr, stepWith_of_not_running rnd' hr]
  · refine ⟨advance (writeV (countDraw s) x (rnd &&& nn)), ?_, readV_advance_writeV x _, rfl, frame_loadRandom x _⟩
    rw [stepWith_of_fetch rnd hr hf, decode_rnd_word]
    rfl

/-! ### The report -/

theorem frameDirty_of_not_running (h : ¬ Running s) : frameDirty s = false := by
  rw [Bool.eq_false_iff, Ne, frameDirty_iff]
  exact fun hd => h hd.1

theorem frameDirty_of_no_fetch (h : fetch s = none) : frameDirty s = false := by
  rw [Bool.eq_false_iff, Ne, frameDirty_iff]
  rintro ⟨-, w, hw, -⟩
  simp [h] at hw

/-- A running core reports a fetched drawing instruction that raises no fault. -/
theorem frameDirty_of_running (hr : Running s) (hf : fetch s = some w) :
    frameDirty s = (drawsScreen (decode w) && (raisedFault (decode w) s).isNone) := by
  rw [frameDirty_of_fetch hr hf, completed_exec hr.1]

theorem drawsScreen_iff {i : Instr} : drawsScreen i = true ↔ i = .cls ∨ ∃ x y n, i = .drw x y n := by
  cases i <;> simp [drawsScreen]

/-- Settles O29: the range check fails, so the draw raises its fault, and a fault is not a completion. -/
theorem drawOutOfMemoryFaults : Obligations.DrawOutOfMemoryFaults := by
  unfold Obligations.DrawOutOfMemoryFaults
  intro x y n s hn hout
  have hexec := exec_drw_of_out x y (not_inMemory_iff.2 ⟨hn, hout⟩)
  refine ⟨hexec, fun hf => frameDirty_of_not_completed hf ?_⟩
  rw [decode_drw_word, hexec]
  rfl

/-- Everything a step of a running core can do, with its report. -/
theorem stepWith_running (hr : Running s) (h : stepWith rnd s = .next t) :
    (∃ f, t = { s with fault := some f } ∧ frameDirty s = false) ∨
    (∃ w, fetch s = some w ∧ Completes (decode w) s t ∧ frameDirty s = drawsScreen (decode w)) := by
  cases hf : fetch s with
  | none =>
    rw [stepWith_of_no_fetch rnd hr hf] at h
    exact Or.inl ⟨_, (Host.Outcome.next.inj h).symm, frameDirty_of_no_fetch hf⟩
  | some w =>
    rw [stepWith_of_fetch rnd hr hf] at h
    have hdirty := frameDirty_of_running hr hf
    rcases execWith_next h with ⟨f, hraised, ht⟩ | ⟨hraised, hc⟩
    · exact Or.inl ⟨f, ht, by simp [hdirty, hraised]⟩
    · exact Or.inr ⟨w, rfl, hc, by simp [hdirty, hraised]⟩

/-- Settles O40: the tests at the top, the fetch, then the cases of a step of a running core. -/
theorem stepCycleFollowsItsRule : Obligations.StepCycleFollowsItsRule := by
  unfold Obligations.StepCycleFollowsItsRule
  intro rnd s
  refine ⟨fun hfault => ?_, fun _ hwait => ?_, fun hr hpc => ?_, fun hr hpc => ?_, fun hr t h => ?_⟩
  · have hnr : ¬ Running s := fun hr => hfault hr.1
    exact ⟨stepWith_of_not_running rnd hnr, frameDirty_of_not_running hnr⟩
  · have hnr : ¬ Running s := fun hr => by simp [hr.2] at hwait
    exact ⟨stepWith_of_not_running rnd hnr, frameDirty_of_not_running hnr⟩
  · have hf := fetch_eq_none s hpc
    exact ⟨stepWith_of_no_fetch rnd hr hf, frameDirty_of_no_fetch hf⟩
  · exact stepWith_of_fetch rnd hr (fetch_eq_some s hpc)
  · rcases stepWith_running hr h with ⟨f, rfl, hdirty⟩ | ⟨w, hf, hc, hdirty⟩
    · exact ⟨fun _ => ⟨rfl, hdirty⟩, fun hnone => by simp at hnone⟩
    · refine ⟨fun hfault => absurd (hc.fault_eq.trans hr.1) hfault, fun _ => ?_⟩
      rw [hdirty, drawsScreen_iff, hf]
      simp

/-- A drawing instruction writes no memory and of the parts only the screen. -/
theorem writes_of_drawsScreen {i : Instr} (s : State) (h : drawsScreen i = true) :
    storesTo i s = nothing ∧ partsWritten i = [.screen] := by
  rcases drawsScreen_iff.1 h with rfl | ⟨x, y, n, rfl⟩
  · exact ⟨rfl, rfl⟩
  · exact ⟨rfl, rfl⟩

/-- Settles O48: a step that completes reports exactly the instructions whose frame excepts the screen. -/
theorem screenChangesAreReported : Obligations.ScreenChangesAreReported := by
  unfold Obligations.ScreenChangesAreReported
  intro rnd s t h
  by_cases hr : Running s
  · rcases stepWith_running hr h with ⟨f, rfl, -⟩ | ⟨w, -, hc, hdirty⟩
    · exact ⟨fun _ _ _ => rfl, fun _ => ⟨fun _ => rfl, rfl, rfl, rfl⟩⟩
    · rw [hdirty]
      refine ⟨fun hd => hc.frame.screenSame fun hm => ?_, fun hd => ?_⟩
      · simp [screen_mem_partsWritten.1 hm] at hd
      · obtain ⟨hbytes, hparts⟩ := writes_of_drawsScreen s hd
        have hframe := hc.frame
        rw [hbytes, hparts] at hframe
        exact ⟨fun a => hframe.memSame a id, hframe.keypadSame (by decide), hframe.delaySame (by decide),
          hframe.soundSame (by decide)⟩
  · rw [stepWith_of_not_running rnd hr] at h
    cases h
    exact ⟨fun _ _ _ => rfl, fun _ => ⟨fun _ => rfl, rfl, rfl, rfl⟩⟩

end Sys2Proof.Machine

/-! ## Proofs: the host events (45_cycle_and_host_events.md R170 to R180, 44_timer_key.md R164 to R168) -/

namespace Sys2Proof.Machine

variable {s t : State}

/-- Two changes in a row within one frame. -/
theorem FrameExcept.trans {regs : RegIdx → Prop} {bytes : Nat → Prop} {parts : List Part} {u : State}
    (h : FrameExcept regs bytes parts s t) (h' : FrameExcept regs bytes parts t u) :
    FrameExcept regs bytes parts s u where
  regsSame r hr := (h'.regsSame r hr).trans (h.regsSame r hr)
  memSame a ha := (h'.memSame a ha).trans (h.memSame a ha)
  indexSame hn := (h'.indexSame hn).trans (h.indexSame hn)
  stackSame hn := ⟨(h'.stackSame hn).1.trans (h.stackSame hn).1, (h'.stackSame hn).2.trans (h.stackSame hn).2⟩
  delaySame hn := (h'.delaySame hn).trans (h.delaySame hn)
  soundSame hn := (h'.soundSame hn).trans (h.soundSame hn)
  keypadSame hn := (h'.keypadSame hn).trans (h.keypadSame hn)
  screenSame hn x y := (h'.screenSame hn x y).trans (h.screenSame hn x y)
  waitingSame hn :=
    ⟨(h'.waitingSame hn).1.trans (h.waitingSame hn).1, (h'.waitingSame hn).2.trans (h.waitingSame hn).2⟩
  faultSame hn := (h'.faultSame hn).trans (h.faultSame hn)
  drawsSame hn := (h'.drawsSame hn).trans (h.drawsSame hn)

/-! ### Reset and load -/

theorem handle_reset (s : State) : handle .reset s = .next (resetEvent s) := rfl

theorem handle_load (bytes : List Byte) (s : State) : handle (.load bytes) s = .next (loadRom bytes s) := rfl

theorem Memory.blank_of_lt {a : Nat} (h : a < 80) : Memory.blank a = Config.font.getD a 0 := if_pos h

theorem Memory.blank_of_le {a : Nat} (h : 80 ≤ a) : Memory.blank a = 0#8 := if_neg (Nat.not_lt.2 h)

/-- Settles O38: the event puts `State.reset` in place of every field of the spec's state. -/
theorem resetRestoresTheInitialState : Obligations.ResetRestoresTheInitialState := by
  unfold Obligations.ResetRestoresTheInitialState
  intro s
  exact ⟨_, handle_reset s, fun _ => Memory.blank_of_lt, fun _ => Memory.blank_of_le,
    fun r => Vector.getElem_replicate r.isLt, rfl, rfl, rfl, fun _ => Vector.getElem_replicate, rfl, rfl,
    fun k => Vector.getElem_replicate k.isLt, pixel_clearScreen, rfl, rfl, rfl⟩

theorem loadRom_of_le {bytes : List Byte} (s : State) (h : bytes.length ≤ 3584) :
    loadRom bytes s = storeBytes 0x200 bytes s := if_pos h

theorem loadRom_of_lt {bytes : List Byte} (s : State) (h : 3584 < bytes.length) : loadRom bytes s = s :=
  if_neg (Nat.not_le.2 h)

/-- A load changes memory only, whether it is accepted or refused. -/
theorem loadRom_eq (bytes : List Byte) (s : State) :
    loadRom bytes s = { s with mem := (loadRom bytes s).mem } := by
  unfold loadRom
  split <;> rfl

/-- Settles O37: by cases on the number of bytes; an accepted load is one run of stores. -/
theorem loadWritesTheRomOrNothing : Obligations.LoadWritesTheRomOrNothing := by
  unfold Obligations.LoadWritesTheRomOrNothing
  intro bytes s
  refine ⟨fun hle => ⟨congrArg Output.loaded (if_pos hle), _, handle_load bytes s, ?_⟩,
    fun hlt => ⟨congrArg Output.loaded (if_neg (Nat.not_le.2 hlt)), ?_⟩⟩
  · rw [loadRom_of_le s hle]
    exact ⟨fun k hk => Memory.read_writeBytes_add s.mem 0x200 hk, rfl,
      (FrameExcept.refl s).withStore fun _ hq => hq⟩
  · rw [handle_load, loadRom_of_lt s hlt]

/-! ### Timers -/

theorem countDown_toNat (b : Byte) : (countDown b).toNat = b.toNat - 1 := by
  unfold countDown
  split_ifs with h
  · rw [h]
    rfl
  · have hpos : 1 ≤ b.toNat := Nat.one_le_iff_ne_zero.2 fun h0 => h (BitVec.eq_of_toNat_eq h0)
    rw [BitVec.toNat_sub_of_le hpos]
    rfl

theorem frame_tickTimers (s : State) : FrameExcept nothing nothing [.delay, .sound] s (tickTimers s) :=
  ((FrameExcept.refl (parts := [.delay, .sound]) s).withDelay (by simp) (countDown s.dt)).withSound
    (by simp) (countDown s.st)

/-- Settles O36: by induction on the number of ticks; each takes 1 off, down to 0. -/
theorem ticksCountDownAndStayAtZero : Obligations.TicksCountDownAndStayAtZero := by
  unfold Obligations.TicksCountDownAndStayAtZero
  intro n
  induction n with
  | zero => exact fun s => ⟨s, rfl, rfl, rfl, rfl, FrameExcept.refl s⟩
  | succ n ih =>
    intro s
    obtain ⟨t, hrun, hdt, hst, hpc, hframe⟩ := ih (tickTimers s)
    refine ⟨t, hrun, ?_, ?_, hpc, (frame_tickTimers s).trans hframe⟩
    · rw [hdt, tickTimers_dt, countDown_toNat]
      omega
    · rw [hst, tickTimers_st, countDown_toNat]
      omega

/-! ### Keys -/

theorem handle_keyDown (k : Nibble) (s : State) : handle (.keyDown k) s = .next (keyDown k s) := rfl

theorem keyDown_of_transition {k : Nibble} (hwait : s.wait = true) (hk : readKey s k = false) :
    keyDown k s = writeKey (resolveKeyWait k s) k true := by
  simp [keyDown, hwait, hk]

theorem keyDown_of_other {k : Nibble} (h : ¬ (s.wait = true ∧ readKey s k = false)) :
    keyDown k s = writeKey s k true := by
  rw [keyDown, if_neg]
  simpa [and_comm] using h

theorem resolveKeyWait_readKey (k q : Nibble) (s : State) : readKey (resolveKeyWait k s) q = readKey s q := rfl

/-- The end of a wait writes `V[WAIT_X]`, clears `WAIT` and moves `PC`. -/
theorem frame_resolveKeyWait (k : Nibble) (s : State) :
    FrameExcept (fun r => r = s.waitX) nothing [.keypad, .waiting] s (resolveKeyWait k s) :=
  (((FrameExcept.refl (regs := fun r => r = s.waitX) s).withReg rfl (zextKey k)).withWaiting
    (by simp) false s.waitX).withPc _

/-- Settles O34: by cases on whether the event ends a wait; the latch bit is set in both. -/
theorem keyDownResolvesThePendingWait : Obligations.KeyDownResolvesThePendingWait := by
  unfold Obligations.KeyDownResolvesThePendingWait
  intro k s
  refine ⟨fun ⟨hwait, hk⟩ => ⟨_, handle_keyDown k s, ?_⟩, fun h => ⟨_, handle_keyDown k s, ?_⟩⟩
  · rw [keyDown_of_transition hwait hk]
    refine ⟨?_, rfl, rfl, rfl, readKey_writeKey_same _ k true, fun q hq => ?_,
      (frame_resolveKeyWait k s).withKey (by simp) k true⟩
    · have hread : readV (writeV s s.waitX (zextKey k)) s.waitX = zextKey k := readV_writeV_same s _ _
      exact (congrArg BitVec.toNat hread).trans (zextKey_toNat k)
    · rw [readKey_writeKey_other _ hq, resolveKeyWait_readKey]
  · rw [keyDown_of_other h]
    exact ⟨rfl, readKey_writeKey_same s k true, fun q hq => readKey_writeKey_other s hq true,
      (FrameExcept.refl s).withKey (by simp) k true⟩

/-! ### Waiting and faulted cores (60_exceptions.md R194, R195, R208) -/

/-- Settles O44: event by event; a step of a waiting core changes nothing, and only a transition resolves. -/
theorem onlyAFreshKeyOrResetEndsTheWait : Obligations.OnlyAFreshKeyOrResetEndsTheWait := by
  unfold Obligations.OnlyAFreshKeyOrResetEndsTheWait
  intro e s t hwait _ h
  cases e with
  | reset =>
    cases h
    exact ⟨fun _ => Or.inl rfl, fun _ => rfl⟩
  | load bytes =>
    cases h
    rw [loadRom_eq]
    simp [hwait]
  | step rnd =>
    have hnr : ¬ Running s := fun hr => by simp [hr.2] at hwait
    rw [handle, stepWith_of_not_running rnd hnr] at h
    cases h
    simp [hwait]
  | tickTimers =>
    cases h
    simp [hwait]
  | keyDown k =>
    cases h
    by_cases hk : readKey s k = false
    · rw [keyDown_of_transition hwait hk]
      exact ⟨fun _ => Or.inr ⟨k, rfl, hk⟩, fun _ => rfl⟩
    · rw [keyDown_of_other fun ht => hk ht.2]
      simp [hwait, hk]
  | keyUp k =>
    cases h
    simp [keyUp, hwait]

/-- No event but `reset` touches the fault, the `PC` or the wait of a faulted core that does not wait. -/
theorem handle_of_faulted {e : Event} (hfault : s.fault ≠ none) (hwait : s.wait = false) (hne : e ≠ .reset)
    (h : handle e s = .next t) : t.fault = s.fault ∧ t.pc = s.pc ∧ t.wait = false := by
  cases e with
  | reset => exact absurd rfl hne
  | load bytes =>
    cases h
    rw [loadRom_eq]
    exact ⟨rfl, rfl, hwait⟩
  | step rnd =>
    rw [handle, stepWith_of_not_running rnd fun hr => hfault hr.1] at h
    cases h
    exact ⟨rfl, rfl, hwait⟩
  | tickTimers =>
    cases h
    exact ⟨rfl, rfl, hwait⟩
  | keyDown k =>
    cases h
    rw [keyDown_of_other fun ht => by simp [hwait] at ht]
    exact ⟨rfl, rfl, hwait⟩
  | keyUp k =>
    cases h
    exact ⟨rfl, rfl, hwait⟩

/-- Settles O43: event by event; a step of a faulted core changes nothing, and without a wait no key resolves one. -/
theorem faultIsTerminalUntilReset : Obligations.FaultIsTerminalUntilReset := by
  unfold Obligations.FaultIsTerminalUntilReset
  intro e s t hfault hwait h
  refine ⟨fun hne => handle_of_faulted hfault hwait hne h, ?_, ?_⟩
  · rintro rnd rfl
    rw [handle, stepWith_of_not_running rnd fun hr => hfault hr.1] at h
    exact (Host.Outcome.next.inj h).symm
  · rintro rfl
    cases h
    rfl

/-! ### Sequences of events (R179) -/

/-- No step stops the model. -/
theorem stepWith_isNext (rnd : Byte) (s : State) : ∃ t, stepWith rnd s = .next t := by
  rcases stepWith_cases s rnd with ⟨-, h⟩ | ⟨-, -, h⟩ | ⟨-, -, h⟩ | ⟨-, -, h⟩
  · exact ⟨_, h⟩
  · exact ⟨_, h⟩
  · exact ⟨_, h⟩
  · rw [h]
    exact execWith_isNext rnd _ s

theorem handle_isNext (e : Event) (s : State) : ∃ t, handle e s = .next t := by
  cases e with
  | step rnd => exact stepWith_isNext rnd s
  | _ => exact ⟨_, rfl⟩

theorem runEvents_cons {e : Event} (es : List Event) (h : handle e s = .next t) :
    runEvents (e :: es) s = runEvents es t := by
  rw [runEvents, h]

/-- Settles O45: by induction on the events, each of which answers a next state. -/
theorem everyEventSequenceAnswersNext : Obligations.EveryEventSequenceAnswersNext := by
  unfold Obligations.EveryEventSequenceAnswersNext
  intro es
  induction es with
  | nil => exact fun s => ⟨s, rfl⟩
  | cons e es ih =>
    intro s
    obtain ⟨t, ht⟩ := handle_isNext e s
    rw [runEvents_cons es ht]
    exact ih t

end Sys2Proof.Machine

/-! ## Proofs: the invariant (10_state.md R43) -/

namespace Sys2Proof.Machine

variable {rnd : Byte} {s t : State}

/-- Settles O53: memory lists no cell, `PC` is the program's base, nothing is pending and no cell is live. -/
theorem invariantHoldsAtReset : Obligations.InvariantHoldsAtReset := by
  unfold Obligations.InvariantHoldsAtReset
  exact ⟨by decide, by decide, by decide, by decide, fun k _ hk => absurd hk (Nat.not_lt_zero k)⟩

/-! ### Steps -/

/-- Latching a fault in a core that does not wait keeps the invariant. -/
theorem CoreInv.withFault (h : CoreInv s) (hwait : s.wait = false) (f : Fault) :
    CoreInv { s with fault := some f } :=
  { h with notBoth := fun hb => Bool.eq_false_iff.1 hwait hb.1 }

theorem add_toNat_le {a d : Word} (ha : a.toNat ≤ 4094) (hd : d.toNat ≤ 4) : (a + d).toNat ≤ 0x10FE := by
  rw [BitVec.toNat_add]
  omega

/-- From a fetchable address, with fetchable return addresses, no instruction leads beyond `0x10FE`. -/
theorem nextPc_le {i : Instr} {w : Word} (hpc : s.pc.toNat ≤ 4094) (hcells : LiveCellsFetchable s)
    (h : NextPc i s w) : w.toNat ≤ 0x10FE := by
  have hfour : (s.pc + 4#16).toNat ≤ 0x10FE := add_toNat_le hpc (by decide)
  have htwo : (s.pc + 2#16).toNat ≤ 0x10FE := add_toNat_le hpc (by decide)
  unfold NextPc at h
  split at h
  case h_1 nnn | h_2 nnn =>
    have hn := nnn.isLt
    rw [h, zextAddr_toNat]
    omega
  case h_3 nnn =>
    have hn := nnn.isLt
    have hv := (readV s 0#4).isLt
    rw [h, jpV0_target_toNat]
    omega
  case h_4 =>
    obtain ⟨hlive, rfl⟩ := h
    exact add_toNat_le (hcells _ (by omega) (by omega)) (by decide)
  case h_11 =>
    rw [h]
    omega
  case h_12 =>
    rw [h]
    exact htwo
  all_goals
    rcases h with rfl | rfl
    · exact hfour
    · exact htwo

/-- One instruction of a running core, with any random input. -/
theorem CoreInv.after_execWith {i : Instr} (h : CoreInv s) (hr : Running s) (hpc : s.pc.toNat ≤ 4094)
    (hexec : execWith rnd i s = .next t) : CoreInv t := by
  rcases execWith_next hexec with ⟨f, -, rfl⟩ | ⟨-, hc⟩
  · exact h.withFault hr.2 f
  · refine ⟨hc.memWf h.memWf, nextPc_le hpc h.cellsFetchable hc.nextPc, fun hb => ?_, fun hwait => ?_,
      hc.liveCells hpc h.cellsFetchable⟩
    · exact hb.2 (hc.fault_eq.trans hr.1)
    · have hw : .waiting ∈ partsWritten i := by
        by_contra hn
        simp [(hc.frame.waitingSame hn).1, hr.2] at hwait
      obtain ⟨x, rfl⟩ := waiting_mem_partsWritten.1 hw
      have hstay : t.pc = s.pc := hc.nextPc
      rwa [hstay]

/-- A step event with any random input. -/
theorem CoreInv.after_stepWith (h : CoreInv s) (hstep : stepWith rnd s = .next t) : CoreInv t := by
  rcases stepWith_cases s rnd with ⟨-, hs⟩ | ⟨-, -, hs⟩ | ⟨hr, -, hs⟩ | ⟨hr, hpc, hs⟩
  · exact Host.Outcome.next.inj (hs.symm.trans hstep) ▸ h
  · exact Host.Outcome.next.inj (hs.symm.trans hstep) ▸ h
  · exact Host.Outcome.next.inj (hs.symm.trans hstep) ▸ h.withFault hr.2 _
  · exact h.after_execWith hr hpc (hs.symm.trans hstep)

/-- Settles O54: the step of the core is the step event with the free value as random input. -/
theorem stepKeepsTheInvariant : Obligations.StepKeepsTheInvariant := by
  unfold Obligations.StepKeepsTheInvariant
  exact fun _ _ h hstep => h.after_stepWith hstep

/-! ### Host events -/

theorem CoreInv.after_reset (s : State) : CoreInv (resetEvent s) := { invariantHoldsAtReset with }

theorem CoreInv.after_load (h : CoreInv s) (bytes : List Byte) : CoreInv (loadRom bytes s) := by
  by_cases hle : bytes.length ≤ 3584
  · rw [loadRom_of_le s hle]
    exact { h with memWf := Memory.wf_writeBytes bytes h.memWf (Or.inr (by omega)) }
  · rwa [loadRom_of_lt s (Nat.not_le.1 hle)]

theorem CoreInv.after_tickTimers (h : CoreInv s) : CoreInv (tickTimers s) := { h with }

theorem CoreInv.after_writeKey (h : CoreInv s) (k : Nibble) (b : Bool) : CoreInv (writeKey s k b) := { h with }

/-- The end of a wait: the waiting core stood at a fetchable address. -/
theorem CoreInv.after_resolveKeyWait (h : CoreInv s) (hwait : s.wait = true) (k : Nibble) :
    CoreInv (resolveKeyWait k s) :=
  { h with
    pcBound := add_toNat_le (h.waitFetchable hwait) (by decide)
    notBoth := fun hb => Bool.false_ne_true hb.1
    waitFetchable := fun hw => absurd hw Bool.false_ne_true }

theorem CoreInv.after_keyDown (h : CoreInv s) (k : Nibble) : CoreInv (keyDown k s) := by
  by_cases ht : s.wait = true ∧ readKey s k = false
  · rw [keyDown_of_transition ht.1 ht.2]
    exact (h.after_resolveKeyWait ht.1 k).after_writeKey k true
  · rw [keyDown_of_other ht]
    exact h.after_writeKey k true

/-- Settles O57: event by event, each by its own lemma. -/
theorem everyEventKeepsTheInvariant : Obligations.EveryEventKeepsTheInvariant := by
  unfold Obligations.EveryEventKeepsTheInvariant
  intro e s t h ht
  cases e with
  | reset => exact Host.Outcome.next.inj ht ▸ CoreInv.after_reset s
  | load bytes => exact Host.Outcome.next.inj ht ▸ h.after_load bytes
  | step rnd => exact h.after_stepWith ht
  | tickTimers => exact Host.Outcome.next.inj ht ▸ h.after_tickTimers
  | keyDown k => exact Host.Outcome.next.inj ht ▸ h.after_keyDown k
  | keyUp k => exact Host.Outcome.next.inj ht ▸ h.after_writeKey k false

/-- Settles O55: the statement about every event covers the five. -/
theorem hostEventsKeepTheInvariant : Obligations.HostEventsKeepTheInvariant := by
  unfold Obligations.HostEventsKeepTheInvariant
  exact fun e s t _ h ht => everyEventKeepsTheInvariant e s t h ht

/-- The invariant along any run of events. -/
theorem CoreInv.after_runEvents {es : List Event} (h : CoreInv s) (hrun : runEvents es s = .next t) : CoreInv t := by
  induction es generalizing s with
  | nil => exact Host.Outcome.next.inj hrun ▸ h
  | cons e es ih =>
    obtain ⟨u, hu⟩ := handle_isNext e s
    rw [runEvents_cons es hu] at hrun
    exact ih (everyEventKeepsTheInvariant e s u h hu) hrun

/-- Settles O56: the invariant holds at reset and along any run. -/
theorem invariantHoldsAfterAnyEvents : Obligations.InvariantHoldsAfterAnyEvents := by
  unfold Obligations.InvariantHoldsAfterAnyEvents
  exact fun _ _ hrun => invariantHoldsAtReset.after_runEvents hrun

end Sys2Proof.Machine

/-! ## Proofs: what follows over several steps (40_control_flow.md R111, 20_memory.md R65, R180) -/

namespace Sys2Proof.Machine

variable {s t : State}

/-- A frame that excepts neither latch keeps a core running. -/
theorem Running.of_frame {regs : RegIdx → Prop} {bytes : Nat → Prop} {parts : List Part} (h : Running s)
    (hframe : FrameExcept regs bytes parts s t) (hf : .faultLatch ∉ parts) (hw : .waiting ∉ parts) : Running t :=
  ⟨(hframe.faultSame hf).trans h.1, (hframe.waitingSame hw).1.trans h.2⟩

/-- Settles O50: the steps are those of the call and of the return; the return pops the cell the call has pushed. -/
theorem callThenReturnComesBack : Obligations.CallThenReturnComesBack := by
  unfold Obligations.CallThenReturnComesBack
  intro nnn s hr hf hsp hnnn hhi hlo
  obtain ⟨hdec, hcall, -⟩ := callPushesItsAddressAndJumps nnn s
  obtain ⟨t, hst, htop, hcells, htsp, htpc, hframe⟩ := hcall hsp
  have hrt : Running t := hr.of_frame hframe (by decide) (by decide)
  have hft : fetch t = some 0x00EE#16 := by
    rw [fetch_eq_some t (htpc ▸ hnnn), wordAtPC, htpc, hframe.memSame _ id, hframe.memSame _ id, hhi, hlo]
    rfl
  obtain ⟨-, hret, -⟩ := returnPopsAddressPlusTwo t
  obtain ⟨u, htu, husp, hustack, hupc, hframe'⟩ := hret (by omega)
  refine ⟨t, u, ?_, ?_, ?_, Fin.ext (by omega), ?_, fun k hk hne => ?_, hframe.trans hframe'⟩
  · rw [step_of_fetch hr hf, hdec, hst]
  · rw [step_of_fetch hrt hft, decode_ret_word, htu]
  · have hpop : t.sp.val - 1 = s.sp.val := by omega
    simp only [hpop, htop] at hupc
    exact hupc
  · simp only [hustack, htop]
  · simp only [hustack]
    exact hcells k hk hne

/-- Settles O51: the two bytes the fetch takes are the first two the dump has stored. -/
theorem storeIsSeenByTheNextFetch : Obligations.StoreIsSeenByTheNextFetch := by
  unfold Obligations.StoreIsSeenByTheNextFetch
  intro x s hr hf hi hx hin
  obtain ⟨hdec, hdump, -⟩ := registerDumpStoresV0ToVx x s
  obtain ⟨t, hst, hmem, hpc, -⟩ := hdump hin
  have hti : t.pc = s.i := hpc.trans hi.symm
  have h0 : Memory.read t.mem (s.i.toNat + 0) = readV s 0#4 := hmem 0#4 (Nat.zero_le _)
  have h1 : Memory.read t.mem (s.i.toNat + 1) = readV s 1#4 := hmem 1#4 hx
  refine ⟨t, by rw [step_of_fetch hr hf, hdec, hst], hti, ?_⟩
  rw [fetch_eq_some t (by rw [hti]; omega), wordAtPC, hti, ← Nat.add_zero s.i.toNat, h0, Nat.add_zero, h1]
  rfl

/-- A state that steps to itself is where any number of steps ends. -/
theorem run_of_step_self {M : Host.Core} {m : M.State} (h : M.step m = .next m) (k : Nat) : M.run k m = .next m := by
  induction k with
  | zero => rfl
  | succ k ih =>
    rw [Host.Core.run, h]
    exact ih

/-- Settles O52: the jump writes to `PC` what it holds, so the step answers the same state. -/
theorem jumpToItselfRests : Obligations.JumpToItselfRests := by
  unfold Obligations.JumpToItselfRests
  intro nnn s hr hf hpc
  refine run_of_step_self (M := Sys2Proof.core) ?_
  change step s = .next s
  have hself : zextAddr nnn = s.pc := BitVec.eq_of_toNat_eq ((zextAddr_toNat nnn).trans hpc.symm)
  rw [step_of_fetch hr hf, decode_jp_word, exec_jp, hself]
  rfl

end Sys2Proof.Machine

/-! ## Proofs: the draw (43_display.md R151 to R156) -/

namespace Sys2Proof.Machine

variable {s t : State}

/-- A lit sprite bit of `Dxyn` lands on a pixel: row `row`, column `col`, each coordinate wrapped on its own (R153). -/
def LandsOn (x y : RegIdx) (n : Nibble) (s : State) (px : Fin 64) (py : Fin 32) : Prop :=
  ∃ row < n.toNat, ∃ col < 8, (Memory.read s.mem (effAddr s row)).getLsbD (7 - col) = true ∧
    ((readV s x).toNat + col) % 64 = px.val ∧ ((readV s y).toNat + row) % 32 = py.val

/-- A lit sprite bit of `Dxyn` lands on a lit pixel (R154). -/
def Collides (x y : RegIdx) (n : Nibble) (s : State) : Prop :=
  ∃ row < n.toNat, ∃ col < 8, (Memory.read s.mem (effAddr s row)).getLsbD (7 - col) = true ∧
    pixel s.fb (wrapX ((readV s x).toNat + col)) (wrapY ((readV s y).toNat + row)) = true

/-- A collision is a lit pixel that a lit bit lands on. -/
theorem collides_iff {x y : RegIdx} {n : Nibble} :
    Collides x y n s ↔ ∃ px py, LandsOn x y n s px py ∧ pixel s.fb px py = true := by
  constructor
  · rintro ⟨row, hrow, col, hcol, hbit, hlit⟩
    exact ⟨_, _, ⟨row, hrow, col, hcol, hbit, rfl, rfl⟩, hlit⟩
  · rintro ⟨px, py, ⟨row, hrow, col, hcol, hbit, hx, hy⟩, hlit⟩
    refine ⟨row, hrow, col, hcol, hbit, ?_⟩
    rwa [show wrapX _ = px from Fin.ext hx, show wrapY _ = py from Fin.ext hy]

/-- Where the framebuffer writer flips pixels, in the words of R153. -/
theorem landsOn_iff {x y : RegIdx} {n : Nibble} {px : Fin 64} {py : Fin 32} :
    (∃ r < n.toNat, wrapY ((readV s y).toNat + r) = py ∧
      ∃ col < 8, ColumnLit (readV s x).toNat (Memory.read s.mem (effAddr s 0 + r)) col px) ↔
    LandsOn x y n s px py := by
  constructor
  · rintro ⟨r, hr, hy, col, hcol, hbit, hx⟩
    exact ⟨r, hr, col, hcol, hbit, congrArg Fin.val hx, congrArg Fin.val hy⟩
  · rintro ⟨r, hr, col, hcol, hbit, hx, hy⟩
    exact ⟨r, hr, Fin.ext hy, col, hcol, hbit, Fin.ext hx⟩

/-- A flip is a change. -/
theorem xor_decide_ne_iff (b : Bool) {p : Prop} {_ : Decidable p} : (b ^^ decide p) ≠ b ↔ p := by
  by_cases hp : p
  · simp [hp]
  · simp [hp]

/-- A draw changes exactly the pixels a lit bit lands on (R154). -/
theorem drawn_pixel_ne_iff (x y : RegIdx) (n : Nibble) (px : Fin 64) (py : Fin 32) :
    pixel (drawn x y n s).1 px py ≠ pixel s.fb px py ↔ LandsOn x y n s px py := by
  rw [drawn, pixel_drawRows _ _ _ _ _ (by omega)]
  exact (xor_decide_ne_iff _).trans landsOn_iff

/-- The collision bit of a draw (R154). -/
theorem drawn_hit_iff (x y : RegIdx) (n : Nibble) : (drawn x y n s).2 = true ↔ Collides x y n s := by
  rw [drawn, hit_drawRows _ _ _ _ _ (by omega)]
  exact or_iff_right Bool.false_ne_true

/-- A draw inside memory, with its changes named. -/
theorem exec_drw (x y : RegIdx) (n : Nibble) (s : State) (hin : n.toNat = 0 ∨ s.i.toNat + n.toNat ≤ 4096) :
    ∃ t, exec (.drw x y n) s = .next t ∧
      (∀ px py, pixel t.fb px py ≠ pixel s.fb px py ↔ LandsOn x y n s px py) ∧
      (Collides x y n s → readV t VF = 1#8) ∧ (¬ Collides x y n s → readV t VF = 0#8) ∧
      t.pc = s.pc + 2#16 ∧ FrameExcept (fun r => r = VF) nothing [.screen] s t := by
  refine ⟨_, exec_drw_of_in x y ((inMemory_iff _ _).2 hin), drawn_pixel_ne_iff x y n, fun hc => ?_, fun hc => ?_,
    rfl, ?_⟩
  · rw [readV_advance_writeV, (drawn_hit_iff x y n).2 hc, flagByte_true]
  · rw [readV_advance_writeV, Bool.eq_false_iff.2 fun h => hc ((drawn_hit_iff x y n).1 h), flagByte_false]
  · exact (((FrameExcept.refl (regs := fun r => r = VF) s).withScreen (List.mem_singleton.2 rfl) _).withReg
      rfl _).withPc _

/-- Settles O28: the pixels and the collision bit are those of the framebuffer writer. -/
theorem drawFlipsExactlyTheLitPixels : Obligations.DrawFlipsExactlyTheLitPixels := by
  unfold Obligations.DrawFlipsExactlyTheLitPixels
  exact fun x y n s => ⟨decode_drw_word x y n, exec_drw x y n s⟩

/-- A draw leaves the sprite, the index and the coordinate registers other than `VF` as they were, so the same draw
lands on the same pixels again. -/
theorem landsOn_of_frame {x y : RegIdx} {n : Nibble} (hx : x ≠ VF) (hy : y ≠ VF)
    (hframe : FrameExcept (fun r => r = VF) nothing [.screen] s t) (px : Fin 64) (py : Fin 32) :
    LandsOn x y n t px py ↔ LandsOn x y n s px py := by
  simp only [LandsOn, effAddr, hframe.indexSame (by decide), hframe.memSame _ id, hframe.regsSame x hx,
    hframe.regsSame y hy]

/-- Two flips, or none, give a pixel back. -/
theorem eq_of_flip_flip {a b c : Bool} (h : c ≠ b ↔ b ≠ a) : c = a := by
  revert a b c
  decide

/-- A pixel flipped to lit was unlit before. -/
theorem lit_by_flip_iff {a b : Bool} : b ≠ a ∧ b = true ↔ a = false ∧ b = true := by
  revert a b
  decide

/-- Settles O30: the second draw flips the pixels of the first back; its collisions are the pixels the first lit. -/
theorem drawTwiceRestoresTheScreen : Obligations.DrawTwiceRestoresTheScreen := by
  unfold Obligations.DrawTwiceRestoresTheScreen
  intro x y n s hx hy hin
  obtain ⟨t, hst, hflip, -, -, -, hframe⟩ := exec_drw x y n s hin
  have hi : t.i = s.i := hframe.indexSame (by decide)
  obtain ⟨u, htu, hflip', hset, hclear, -, -⟩ := exec_drw x y n t (hi ▸ hin)
  have hsame : ∀ px py, pixel u.fb px py ≠ pixel t.fb px py ↔ pixel t.fb px py ≠ pixel s.fb px py :=
    fun px py => (hflip' px py).trans ((landsOn_of_frame hx hy hframe px py).trans (hflip px py).symm)
  have hVF : readV u VF = 1#8 ↔ Collides x y n t := by
    refine ⟨fun h1 => by_contra fun hc => ?_, hset⟩
    rw [hclear hc] at h1
    exact absurd h1 (by decide)
  refine ⟨t, u, hst, htu, fun px py => ?_, ?_⟩
  · exact eq_of_flip_flip (hsame px py)
  · rw [hVF, collides_iff]
    refine exists_congr fun px => exists_congr fun py => ?_
    rw [landsOn_of_frame hx hy hframe, ← hflip px py, lit_by_flip_iff]

end Sys2Proof.Machine
